-- ==== Sys2Proof/Word.lean ====
section
/-! DEFINITION. The widths of this hardware: a byte, a 16-bit frame and a 24-bit command word (00_scope.md R12). -/

namespace Sys2Proof

/-- Characters, register addresses, payloads and segment patterns are 8 bits wide (R12). -/
abbrev Byte := BitVec 8

/-- FRAME16: what one register write shifts out (R65). -/
abbrev FrameWord := BitVec 16

/-- CMD24: what the host presents at the command port (R61). -/
abbrev CmdWord := BitVec 24

end Sys2Proof
end

