-- ==== Sys2Proof/Config.lean ====
section
/-! DEFINITION. The parameters of the block (00_scope.md R11) as one record a model takes as an argument, and the free
values. The default values stand in Machine/Defaults.lean. -/

namespace Sys2Proof

/-- The three output lines (10_state.md R21). -/
inductive LineId where
  | data
  | clock
  | load
  deriving DecidableEq, Repr

/-- The levels of DATA, CLOCK and LOAD: `true` is 1, "high" (00_scope.md section 6, R21). -/
structure Lines where
  data : Bool
  clock : Bool
  load : Bool
  deriving DecidableEq, Repr

/-- The 13 device registers the source names (10_state.md section 7, R30). `digit1` is position 1, the device's "digit 0"
(90_conflicts.md C1). -/
inductive DevReg where
  | digit1
  | digit2
  | digit3
  | digit4
  | digit5
  | digit6
  | digit7
  | digit8
  | decodeMode
  | intensity
  | scanLimit
  | shutdown
  | displayTest
  deriving DecidableEq, Repr

/-- `REGMAP`: the address of each device register, a configuration field (R30, 92_eei_decisions.md D6). -/
structure RegMap where
  digit1 : Byte
  digit2 : Byte
  digit3 : Byte
  digit4 : Byte
  digit5 : Byte
  digit6 : Byte
  digit7 : Byte
  digit8 : Byte
  decodeMode : Byte
  intensity : Byte
  scanLimit : Byte
  shutdown : Byte
  displayTest : Byte
  deriving DecidableEq, Repr

/-- The populated locations of a character ROM, as (character, pattern) pairs; every other location reads blank
(40_segment_encoder.md R83, R84). -/
abbrev RomTable := List (Byte × Byte)

/-- The parameters of R11 that carry a value. `ROM` is `rom`, `ROM_EXT` is `romExt`, `RESET_LINES` is `resetLines`.
The timing parameters `T_*` have no value and no rule depends on one (R110, R176): notes/assumptions/9.md. -/
structure Config where
  regMap : RegMap
  auxAddr : Byte
  scanAll : Byte
  rom : RomTable
  romExt : RomTable
  resetLines : Lines
  deriving DecidableEq, Repr

/-- Free value: in which of the six orders the three lines take `RESET_LINES` at a reset, a fresh draw each time
(70_reset_and_hazards.md R166: "up to three ordinary line events in an unspecified order"; notes/assumptions/5.md). -/
opaque Config.freeResetOrder : Nat → Fin 6

/-- Free value: what the receiver's shift register holds after a CLOCK rise while LOAD is low, which only a reset in
mid-frame can cause (93_implementation_defined.md U6: "any value"; notes/assumptions/6.md). -/
opaque Config.freeShift : Nat → BitVec 16

/-- Free value: what the receiver's shift register holds after a power-up of the device while the block runs
(70_reset_and_hazards.md R164: "any 16-bit value, a draw"; notes/assumptions/4.md). -/
opaque Config.freePowerUp : Nat → BitVec 16

end Sys2Proof
end

