-- ==== Sys2Proof/Machine/Defaults.lean ====
section
/-! DEFINITION. The default configuration: REGMAP (10_state.md R30), the character ROM (40_segment_encoder.md R83),
AUX_ADDR, SCAN_ALL, ROM_EXT (00_scope.md R11); the lowercase range of R81. -/

namespace Sys2Proof

/-- Every device register once, in address order of the default map. -/
def DevReg.all : List DevReg :=
  [.digit1, .digit2, .digit3, .digit4, .digit5, .digit6, .digit7, .digit8,
   .decodeMode, .intensity, .scanLimit, .shutdown, .displayTest]

/-- The eight digit registers in ascending position, the order of CLRALL and INIT (R123, 92_eei_decisions.md D14). -/
def DevReg.digits : List DevReg :=
  [.digit1, .digit2, .digit3, .digit4, .digit5, .digit6, .digit7, .digit8]

/-- `REG_x` under a register map (R30). -/
def RegMap.addr (m : RegMap) : DevReg → Byte
  | .digit1 => m.digit1
  | .digit2 => m.digit2
  | .digit3 => m.digit3
  | .digit4 => m.digit4
  | .digit5 => m.digit5
  | .digit6 => m.digit6
  | .digit7 => m.digit7
  | .digit8 => m.digit8
  | .decodeMode => m.decodeMode
  | .intensity => m.intensity
  | .scanLimit => m.scanLimit
  | .shutdown => m.shutdown
  | .displayTest => m.displayTest

/-- `REG_NOOP`: the address the map gives to no register of the source (R30). -/
def regNoop : Byte := 0x00

/-- The default `REGMAP` (R30; the numbers are the spec's general knowledge, K2; notes/assumptions/13.md). -/
def RegMap.default : RegMap where
  digit1 := 0x01
  digit2 := 0x02
  digit3 := 0x03
  digit4 := 0x04
  digit5 := 0x05
  digit6 := 0x06
  digit7 := 0x07
  digit8 := 0x08
  decodeMode := 0x09
  intensity := 0x0A
  scanLimit := 0x0B
  shutdown := 0x0C
  displayTest := 0x0F

/-- The 18 populated locations of the default ROM (R83; notes/assumptions/16.md). -/
def romDefault : RomTable :=
  [(0x20, 0x00), (0x2E, 0x80),
   (0x30, 0x7E), (0x31, 0x30), (0x32, 0x6D), (0x33, 0x79), (0x34, 0x33),
   (0x35, 0x5B), (0x36, 0x5F), (0x37, 0x70), (0x38, 0x7F), (0x39, 0x7B),
   (0x41, 0x77), (0x42, 0x1F), (0x43, 0x4E), (0x44, 0x3D), (0x45, 0x4F), (0x46, 0x47)]

/-- The default configuration of R11. `RESET_LINES` has no default ("OPEN, any of the 8 combinations"): all three lines
low here is the model's DESIGN CHOICE (notes/assumptions/2.md), and no statement rests on it. -/
def Config.default : Config where
  regMap := RegMap.default
  auxAddr := 0x03
  scanAll := 0x07
  rom := romDefault
  romExt := []
  resetLines := ⟨false, false, false⟩

/-- A lowercase letter, 0x61 to 0x7A (40_segment_encoder.md R81). -/
def isLower (c : Byte) : Bool := decide (0x61 ≤ c.toNat ∧ c.toNat ≤ 0x7A)

end Sys2Proof
end

