-- ==== Sys2Proof/Syntax.lean ====
section
/-! DEFINITION. The instructions: the 11 commands of format CMD24 and the 14 frames of format FRAME16, one constructor per
row of spec/opcode_table.json; the fields of a command word; the textual form and the API calls they come from. -/

namespace Sys2Proof

/-- One constructor per row of the opcode table. The first eleven are what the serializer executes (30_encoding.md R62);
the `frame…` ones are what the receiver executes when it latches a frame (10_state.md R34, 30_encoding.md R71). Every
operand is a full-width unsigned value (R66). -/
inductive Instr where
  | lookup (char : Byte)
  | wrreg (addr data : Byte)
  | init
  | setbrt (level : Byte)
  | clrall
  | dispch (pos char : Byte) (dp : Bool)
  | auxdot (flags : Byte)
  | shdnon
  | shdnoff
  | teston
  | testoff
  | frameNoop (data : Byte)
  | frameDigit1 (data : Byte)
  | frameDigit2 (data : Byte)
  | frameDigit3 (data : Byte)
  | frameDigit4 (data : Byte)
  | frameDigit5 (data : Byte)
  | frameDigit6 (data : Byte)
  | frameDigit7 (data : Byte)
  | frameDigit8 (data : Byte)
  | frameDecode (data : Byte)
  | frameIntensity (data : Byte)
  | frameScanLimit (data : Byte)
  | frameShutdown (data : Byte)
  | frameDisplayTest (data : Byte)
  deriving DecidableEq, Repr

/-- The fields of a CMD24 word (R61): OP 23:20, RSV 19:17, DP 16, A 15:8, B 7:0. -/
structure CmdFields where
  op : BitVec 4
  rsv : BitVec 3
  dp : Bool
  a : Byte
  b : Byte
  deriving DecidableEq, Repr

/-- A word of either format (R60). -/
inductive TableWord where
  | cmd (w : CmdWord)
  | frame (w : FrameWord)
  deriving DecidableEq, Repr

/-- Why a word spells no instruction: the reasons of R63 and R64 for a command word, and an address byte that no row
carries for a frame (R70, R71; such a frame is not illegal, it has no row). -/
inductive DecodeError where
  | reservedOpcode
  | reservedBitsSet
  | unusedDpSet
  | unusedASet
  | unusedBSet
  | noRowForAddress
  deriving DecidableEq, Repr

/-- One frame as the rules write it: (address, data) (42_display_control.md R133). -/
abbrev Frame := Byte × Byte

/-- An operand of the textual form: a number, or an ASCII character in single quotes (30_encoding.md R72). -/
inductive AsmOperand where
  | num (n : Nat)
  | chr (c : Char)
  deriving DecidableEq, Repr

/-- The textual form of a command after splitting at the commas: the mnemonic, then its operands in the order A, B, DP
(R72). -/
structure AsmLine where
  mnemonic : String
  operands : List AsmOperand
  deriving DecidableEq, Repr

/-- A call of the caller-facing API (R61), its operands as the bytes the source passes; `dotFlag` is a byte there (R69). -/
inductive ApiCall where
  | callInitialize
  | writeRegister (addr data : Byte)
  | setBrightness (level : Byte)
  | clearAll
  | displayCharacter (pos char dotFlag : Byte)
  | displayAuxDots (flags : Byte)
  | shutdownStart
  | shutdownStop
  | testStart
  | testStop
  | lookupChar (char : Byte)
  deriving DecidableEq, Repr

end Sys2Proof
end

