-- ==== Sys2Proof/WellFormed.lean ====
section
/-! DEFINITION. What is well formed: the fields of a command word (30_encoding.md R63), a configuration
(10_state.md R30, 40_segment_encoder.md R85, R87, 42_display_control.md R126), an instruction. -/

namespace Sys2Proof

/-- `OP` is one of the eleven of R62: 0x1 to 0xB. -/
def CmdFields.opAssigned (f : CmdFields) : Bool := decide (1 ≤ f.op.toNat ∧ f.op.toNat ≤ 11)

/-- `RSV` is zero in every command (R63). -/
def CmdFields.rsvOk (f : CmdFields) : Bool := f.rsv == 0

/-- `DP` is zero in every command but DISPCH (R63). -/
def CmdFields.dpOk (f : CmdFields) : Bool := f.op == 0x6 || !f.dp

/-- `A` is zero in every command but WRREG and DISPCH (R63). -/
def CmdFields.aOk (f : CmdFields) : Bool := f.op == 0x2 || f.op == 0x6 || f.a == 0

/-- `B` is zero in INIT, CLRALL, SHDNON, SHDNOFF, TESTON and TESTOFF (R63). -/
def CmdFields.bOk (f : CmdFields) : Bool :=
  !(f.op == 0x3 || f.op == 0x5 || f.op == 0x8 || f.op == 0x9 || f.op == 0xA || f.op == 0xB) || f.b == 0

/-- A field record that spells a command: an assigned opcode, and every field the command does not use is zero
(R63, R64). -/
def CmdFields.wf (f : CmdFields) : Bool := f.opAssigned && f.rsvOk && f.dpOk && f.aOk && f.bOk

/-- Every term of `Instr` is well formed: each operand has its field's own width, all its values are legal (30_encoding.md
R66, R70; 60_exceptions.md R141), and no frame is illegal on the wire (R71). What can be ill formed is a command word's
field record (`CmdFields.wf`) and a configuration (`Config.wf`). -/
def Instr.wellFormed (_ : Instr) : Bool := true

/-- The characters every ROM must populate: space, '.', '0' to '9', 'A' to 'F' (R83, R85 c). -/
def romRequired : List Byte := romDefault.map Prod.fst

/-- The 13 addresses are distinct, lie in 0x00 to 0x0F, and none is `REG_NOOP` (R30). -/
def RegMap.distinct (m : RegMap) : Bool := decide (DevReg.all.map m.addr).Nodup

/-- "small integer address (0x00–0x0F range)" (R30). -/
def RegMap.inRange (m : RegMap) : Bool := DevReg.all.all fun r => decide ((m.addr r).toNat ≤ 0x0F)

/-- No register has the address of `REG_NOOP` (R30). -/
def RegMap.avoidsNoop (m : RegMap) : Bool := DevReg.all.all fun r => m.addr r != regNoop

/-- A register map the spec admits (R30; notes/assumptions/8.md). -/
def RegMap.wf (m : RegMap) : Bool := m.distinct && m.inRange && m.avoidsNoop

/-- `AUX_ADDR` is one of the eight digit addresses (R126). -/
def Config.auxOk (c : Config) : Bool := (DevReg.digits.map c.regMap.addr).contains c.auxAddr

/-- `ROM['A']` = 0x77 (R85 a). -/
def Config.romAOk (c : Config) : Bool := c.rom.lookup 0x41 == some 0x77

/-- The populated set includes the required characters (R85 c). -/
def Config.romCovers (c : Config) : Bool := romRequired.all fun k => (c.rom.map Prod.fst).contains k

/-- No key is a lowercase letter (R85 d, R87). -/
def Config.romNoLower (c : Config) : Bool := (c.rom ++ c.romExt).all fun e => !isLower e.1

/-- Each location is populated once, and `ROM_EXT` lies outside the ROM's own table (R87). -/
def Config.romKeysDistinct (c : Config) : Bool := decide ((c.rom ++ c.romExt).map Prod.fst).Nodup

/-- An admissible configuration. `RESET_LINES` and `SCAN_ALL` are free (R11). -/
def Config.wf (c : Config) : Bool :=
  c.regMap.wf && c.auxOk && c.romAOk && c.romCovers && c.romNoLower && c.romKeysDistinct

end Sys2Proof
end

