-- ==== Sys2Proof/Decode.lean ====
section
/-! DEFINITION. From words to instructions, rejecting by name, and back; the textual form and the API calls
(30_encoding.md R60 to R73, 10_state.md R30). -/

namespace Sys2Proof

/-- Cut a command word into its fields (R61). -/
def CmdFields.ofWord (w : CmdWord) : CmdFields where
  op := w.extractLsb' 20 4
  rsv := w.extractLsb' 17 3
  dp := w.getLsbD 16
  a := w.extractLsb' 8 8
  b := w.extractLsb' 0 8

/-- Put the fields together: `OP ‖ RSV ‖ DP ‖ A ‖ B` (R61). -/
def CmdFields.toWord (f : CmdFields) : CmdWord := f.op ++ f.rsv ++ BitVec.ofBool f.dp ++ f.a ++ f.b

/-- Refuse a set field that the command does not use, by name (R63, R64). -/
def CmdFields.unused (f : CmdFields) (usesDp usesA usesB : Bool) (i : Instr) : Except DecodeError Instr :=
  if f.rsv ≠ 0 then .error .reservedBitsSet
  else if !usesDp && f.dp then .error .unusedDpSet
  else if !usesA && f.a != 0 then .error .unusedASet
  else if !usesB && f.b != 0 then .error .unusedBSet
  else .ok i

/-- The opcode map (R62). -/
def CmdFields.decode (f : CmdFields) : Except DecodeError Instr :=
  match f.op.toNat with
  | 0x1 => f.unused false false true (.lookup f.b)
  | 0x2 => f.unused false true true (.wrreg f.a f.b)
  | 0x3 => f.unused false false false .init
  | 0x4 => f.unused false false true (.setbrt f.b)
  | 0x5 => f.unused false false false .clrall
  | 0x6 => f.unused true true true (.dispch f.a f.b f.dp)
  | 0x7 => f.unused false false true (.auxdot f.b)
  | 0x8 => f.unused false false false .shdnon
  | 0x9 => f.unused false false false .shdnoff
  | 0xA => f.unused false false false .teston
  | 0xB => f.unused false false false .testoff
  | _ => .error .reservedOpcode

/-- Decode a command word (R62 to R64). -/
def decodeCommand (w : CmdWord) : Except DecodeError Instr := (CmdFields.ofWord w).decode

/-- The register a map gives an address to, if any: the recognised addresses are those with one (R30). -/
def RegMap.find (m : RegMap) (a : Byte) : Option DevReg := DevReg.all.find? fun r => m.addr r == a

/-- The address byte of a frame, sent first (R65). -/
def frameAddr (w : FrameWord) : Byte := w.extractLsb' 8 8

/-- The data byte of a frame (R65). -/
def frameData (w : FrameWord) : Byte := w.extractLsb' 0 8

/-- A frame as one 16-bit value: `addr ‖ data` (20_memory.md R43). -/
def frameWord (fr : Frame) : FrameWord := fr.1 ++ fr.2

/-- The FRAME16 row of a device register (R71). -/
def Instr.frameOf : DevReg → Byte → Instr
  | .digit1, d => .frameDigit1 d
  | .digit2, d => .frameDigit2 d
  | .digit3, d => .frameDigit3 d
  | .digit4, d => .frameDigit4 d
  | .digit5, d => .frameDigit5 d
  | .digit6, d => .frameDigit6 d
  | .digit7, d => .frameDigit7 d
  | .digit8, d => .frameDigit8 d
  | .decodeMode, d => .frameDecode d
  | .intensity, d => .frameIntensity d
  | .scanLimit, d => .frameScanLimit d
  | .shutdown, d => .frameShutdown d
  | .displayTest, d => .frameDisplayTest d

/-- Decode a latched frame: "The address byte selects the register by `REGMAP`" (R71). The address 0x00 of `REG_NOOP` has
a row of its own; the other unrecognised addresses have none, and the receiver's latch treats them without an instruction
(10_state.md R34). -/
def decodeFrame (m : RegMap) (w : FrameWord) : Except DecodeError Instr :=
  match m.find (frameAddr w) with
  | some r => .ok (Instr.frameOf r (frameData w))
  | none => if frameAddr w = regNoop then .ok (.frameNoop (frameData w)) else .error .noRowForAddress

/-- Decode a word of either format. -/
def decode (m : RegMap) : TableWord → Except DecodeError Instr
  | .cmd w => decodeCommand w
  | .frame w => decodeFrame m w

/-- What the host's table asks: the instruction in a word of `nbits` bits, under the default `REGMAP`. A command word and a
frame are port and wire values that have no byte order (20_memory.md R44), so the bits are the table's own. -/
def decodeTableWord (nbits w : Nat) : Option Instr :=
  if w < 2 ^ nbits then
    if nbits = 24 then (decode RegMap.default (.cmd (BitVec.ofNat 24 w))).toOption
    else if nbits = 16 then (decode RegMap.default (.frame (BitVec.ofNat 16 w))).toOption
    else none
  else none

/-- A command word with `RSV` = 0 (R61, R63). -/
def cmdWord (op : BitVec 4) (dp : Bool) (a b : Byte) : CmdWord := CmdFields.toWord ⟨op, 0, dp, a, b⟩

/-- The word of an instruction: the encoding lines of R80, R100, R121 to R130 and the frame rows of R71. -/
def encode (m : RegMap) : Instr → TableWord
  | .lookup c => .cmd (cmdWord 0x1 false 0 c)
  | .wrreg a d => .cmd (cmdWord 0x2 false a d)
  | .init => .cmd (cmdWord 0x3 false 0 0)
  | .setbrt b => .cmd (cmdWord 0x4 false 0 b)
  | .clrall => .cmd (cmdWord 0x5 false 0 0)
  | .dispch p c dp => .cmd (cmdWord 0x6 dp p c)
  | .auxdot f => .cmd (cmdWord 0x7 false 0 f)
  | .shdnon => .cmd (cmdWord 0x8 false 0 0)
  | .shdnoff => .cmd (cmdWord 0x9 false 0 0)
  | .teston => .cmd (cmdWord 0xA false 0 0)
  | .testoff => .cmd (cmdWord 0xB false 0 0)
  | .frameNoop d => .frame (frameWord (regNoop, d))
  | .frameDigit1 d => .frame (frameWord (m.addr .digit1, d))
  | .frameDigit2 d => .frame (frameWord (m.addr .digit2, d))
  | .frameDigit3 d => .frame (frameWord (m.addr .digit3, d))
  | .frameDigit4 d => .frame (frameWord (m.addr .digit4, d))
  | .frameDigit5 d => .frame (frameWord (m.addr .digit5, d))
  | .frameDigit6 d => .frame (frameWord (m.addr .digit6, d))
  | .frameDigit7 d => .frame (frameWord (m.addr .digit7, d))
  | .frameDigit8 d => .frame (frameWord (m.addr .digit8, d))
  | .frameDecode d => .frame (frameWord (m.addr .decodeMode, d))
  | .frameIntensity d => .frame (frameWord (m.addr .intensity, d))
  | .frameScanLimit d => .frame (frameWord (m.addr .scanLimit, d))
  | .frameShutdown d => .frame (frameWord (m.addr .shutdown, d))
  | .frameDisplayTest d => .frame (frameWord (m.addr .displayTest, d))

/-- A (match, mask) pair of the opcode map: a word spells the row's command when `cw & mask = match` (R62). -/
def opcodeRows : List (CmdWord × CmdWord) :=
  [(0x100000, 0xFFFF00), (0x200000, 0xFF0000), (0x300000, 0xFFFFFF), (0x400000, 0xFFFF00),
   (0x500000, 0xFFFFFF), (0x600000, 0xFE0000), (0x700000, 0xFFFF00), (0x800000, 0xFFFFFF),
   (0x900000, 0xFFFFFF), (0xA00000, 0xFFFFFF), (0xB00000, 0xFFFFFF)]

/-- The word matches the row (R62). -/
def rowMatches (cw : CmdWord) (row : CmdWord × CmdWord) : Bool := cw &&& row.2 == row.1

/-- A numeric operand of 8 bits (R72, R66). -/
def AsmOperand.byte : AsmOperand → Option Byte
  | .num n => if n < 256 then some (BitVec.ofNat 8 n) else none
  | .chr _ => none

/-- An operand that is a character: a number, or an ASCII character in quotes (R72, 92_eei_decisions.md D12). -/
def AsmOperand.char : AsmOperand → Option Byte
  | .num n => if n < 256 then some (BitVec.ofNat 8 n) else none
  | .chr c => if c.toNat < 128 then some (BitVec.ofNat 8 c.toNat) else none

/-- The `dp` operand of DISPCH: "dp is 0 or 1" (R72). -/
def AsmOperand.flag : AsmOperand → Option Bool
  | .num 0 => some false
  | .num 1 => some true
  | _ => none

/-- Read the textual form of a command (R72). -/
def assemble (l : AsmLine) : Option Instr :=
  match l.mnemonic, l.operands with
  | "LOOKUP", [c] => c.char.map .lookup
  | "WRREG", [a, d] => a.byte.bind fun a => d.byte.map fun d => .wrreg a d
  | "INIT", [] => some .init
  | "SETBRT", [b] => b.byte.map .setbrt
  | "CLRALL", [] => some .clrall
  | "DISPCH", [p, c, dp] => p.byte.bind fun p => c.char.bind fun c => dp.flag.map fun dp => .dispch p c dp
  | "AUXDOT", [f] => f.byte.map .auxdot
  | "SHDNON", [] => some .shdnon
  | "SHDNOFF", [] => some .shdnoff
  | "TESTON", [] => some .teston
  | "TESTOFF", [] => some .testoff
  | _, _ => none

/-- Write a command in its textual form; a frame has none (R72). -/
def Instr.toAsm : Instr → Option AsmLine
  | .lookup c => some ⟨"LOOKUP", [.num c.toNat]⟩
  | .wrreg a d => some ⟨"WRREG", [.num a.toNat, .num d.toNat]⟩
  | .init => some ⟨"INIT", []⟩
  | .setbrt b => some ⟨"SETBRT", [.num b.toNat]⟩
  | .clrall => some ⟨"CLRALL", []⟩
  | .dispch p c dp => some ⟨"DISPCH", [.num p.toNat, .num c.toNat, .num dp.toNat]⟩
  | .auxdot f => some ⟨"AUXDOT", [.num f.toNat]⟩
  | .shdnon => some ⟨"SHDNON", []⟩
  | .shdnoff => some ⟨"SHDNOFF", []⟩
  | .teston => some ⟨"TESTON", []⟩
  | .testoff => some ⟨"TESTOFF", []⟩
  | .frameNoop _ | .frameDigit1 _ | .frameDigit2 _ | .frameDigit3 _ | .frameDigit4 _ | .frameDigit5 _
  | .frameDigit6 _ | .frameDigit7 _ | .frameDigit8 _ | .frameDecode _ | .frameIntensity _ | .frameScanLimit _
  | .frameShutdown _ | .frameDisplayTest _ => none

/-- "the API value 0x80 is `DP` = 1 and the API value 0 ... is `DP` = 0"; no other value can be expressed (R69). -/
def dotFlagToDp (dotFlag : Byte) : Option Bool :=
  if dotFlag = 0x80 then some true else if dotFlag = 0x00 then some false else none

/-- The command an API call stands for (R62's "source's name" column, R69); a `dotFlag` no command word can express has
none, and a transcriber refuses such a call (93_implementation_defined.md U11; notes/assumptions/20.md). -/
def ApiCall.toInstr : ApiCall → Option Instr
  | .callInitialize => some .init
  | .writeRegister a d => some (.wrreg a d)
  | .setBrightness b => some (.setbrt b)
  | .clearAll => some .clrall
  | .displayCharacter p c flag => (dotFlagToDp flag).map fun dp => .dispch p c dp
  | .displayAuxDots f => some (.auxdot f)
  | .shutdownStart => some .shdnon
  | .shutdownStop => some .shdnoff
  | .testStart => some .teston
  | .testStop => some .testoff
  | .lookupChar c => some (.lookup c)

end Sys2Proof
end

