-- ==== Sys2Proof/Machine/State.lean ====
section
/-! DEFINITION. The state of the block, of the conceptual receiver and of the ports; the reasons a step can stop; the state
after reset (10_state.md, 70_reset_and_hazards.md section 1). -/

namespace Sys2Proof.Machine

/-- `SEQ`, the sequencer position, the block's program counter (R23): the command word being executed, the index of the
frame and the index of the next event inside it. -/
inductive Seq where
  | idle
  | run (cw : CmdWord) (f k : Nat)
  deriving DecidableEq, Repr

/-- `L(id, level)` of 00_scope.md section 6: set one line to one level (R22). -/
structure LineEvent where
  id : LineId
  level : Bool
  deriving DecidableEq, Repr

/-- An event of the call trace: a line event, or the result event `Q(v)` (R9, R28). -/
inductive Event where
  | line (e : LineEvent)
  | result (v : Byte)
  deriving DecidableEq, Repr

/-- What the outside does in one step: the host holds a command word at the port until it is accepted (R26), presents
nothing, or raises the reset input (60_exceptions.md R148, R160); or the device is powered up while the block runs on
(70_reset_and_hazards.md R163, R164). -/
inductive Input where
  | command (cw : CmdWord)
  | quiet
  | reset
  | devicePowerUp
  deriving DecidableEq, Repr

/-- The device register space as the receiver records it (20_memory.md R41, 10_state.md R35): (address, value) cells, the
addresses strictly rising. An address that is not listed holds "no value". -/
abbrev Memory := List Host.Cell

/-- Why the machine stops with a fault. No command raises one (R140, R142). -/
inductive Fault where
  /-- Raised by `step` when `SEQ` is a position that no command has; R25: `SEQ` "never holds a value outside the ranges of
  rule R23". No reachable state raises it (notes/assumptions/19.md). Safe: the machine stops where the spec has no state. -/
  | seqOutOfRange
  /-- Raised by a claim's read of a `DS` entry that holds "no value" (R35, R163). No instruction raises it. Safe: the spec
  says such a read faults (notes/assumptions/11.md). -/
  | dsNoValue (a : Byte)
  /-- Raised by a claim's read of `DS` at an address that is not recognised, where there is no entry (R35). No instruction
  raises it. Safe: nothing is there to read. -/
  | dsNoEntry (a : Byte)
  deriving DecidableEq, Repr

/-- Why the machine refuses. -/
inductive Refusal where
  /-- Raised by `exec`'s arm of an instruction that has no meaning yet. Safe. -/
  | notModelled (mnemonic : String)
  /-- Raised by `step` when the word presented spells no command: the outcome `refuse` of R64, with the reason. Safe: the
  block gives the word no meaning. -/
  | spellsNoCommand (why : DecodeError)
  deriving DecidableEq, Repr

/-- Everything the spec gives the machine. -/
structure State where
  /-- The parameters of R11, fixed for the machine: no step changes them (R162). They are the model's argument, carried
  here so that a claim about every state is a claim about every configuration (notes/assumptions/1.md). -/
  cfg : Config
  /-- What the outside does from now on, one input a step, a command held until accepted; not a queue of the block's
  (R6, R26, R148; notes/assumptions/3.md). -/
  inputs : List Input
  /-- The sequencer position (R23). -/
  seq : Seq
  /-- The line registers DATA, CLOCK and LOAD (R21). -/
  lines : Lines
  /-- The receiver's 16-bit shift register `RX_SHIFT` (R32). -/
  rxShift : BitVec 16
  /-- The DisplayState `DS` (R35). -/
  ds : Memory
  /-- The call trace, oldest event first: an output the block never reads (R9; notes/assumptions/18.md). -/
  callTrace : List Event
  /-- The line waveform, oldest triple first: the levels of the three lines at power-up and after every change of a level,
  whether a line event or a reset made it (R9; notes/assumptions/17.md, 18.md). -/
  waveform : List Lines
  /-- The frame trace, oldest frame first: what the receiver has latched (R9, R34). -/
  frameTrace : List FrameWord
  /-- The last value the block wrote at each address since the device was powered up, by frames whose latch it reached: what
  "values the block did not write" is told by (42_display_control.md R134, 20_memory.md R53; notes/assumptions/25.md). An
  observer's record, which nothing in the block reads. -/
  written : Memory
  /-- How many free values have been drawn, the argument of the next one: the model's own field, not the spec's (R164, R166;
  notes/assumptions/5.md). -/
  draws : Nat
  deriving DecidableEq, Repr

/-- The machine after power-up of block and device, for any configuration and any content of the shift register: `SEQ` is
IDLE and the lines are at `RESET_LINES` (R160, R161), `RX_SHIFT` is unspecified (R164), no entry of `DS` holds a value
(R163), the traces are empty, the waveform starts with the levels there are. -/
def State.powerUp (cfg : Config) (rx : BitVec 16) : State where
  cfg := cfg
  inputs := []
  seq := .idle
  lines := cfg.resetLines
  rxShift := rx
  ds := []
  callTrace := []
  waveform := [cfg.resetLines]
  frameTrace := []
  written := []
  draws := 0

/-- The machine right after reset, in the default configuration. The shift register's 0 (notes/assumptions/4.md) and the
line levels of `Config.default` (notes/assumptions/2.md) are DESIGN CHOICES. -/
def State.reset : State := State.powerUp Config.default 0

end Sys2Proof.Machine
end

