-- ==== Sys2Proof/Machine/Operands.lean ====
section
/-! DEFINITION. The payloads the commands compute: the character ROM behind its case normalisation (40_segment_encoder.md)
and the operations of 42_display_control.md R131; the segment order of R86. -/

namespace Sys2Proof.Machine

/-- `norm(c)`: a lowercase letter becomes its uppercase letter, every other character is left as it is (R81). -/
def normalise (c : Byte) : Byte := if isLower c then c - 0x20 else c

/-- `ROM[c]` = `MemRead(c, 1)`: what the table, extended by `ROM_EXT`, holds; blank where it holds nothing (R84, R87; notes/assumptions/16.md). -/
def romRead (cfg : Config) (c : Byte) : Byte := ((cfg.rom ++ cfg.romExt).lookup c).getD 0x00

/-- `lookup(c)` = `ROM[norm(c)]` (R82). -/
def lookup (cfg : Config) (c : Byte) : Byte := romRead cfg (normalise c)

/-- SETBRT's payload: `B & 0x0F` (R122). -/
def brightness (b : Byte) : Byte := b &&& 0x0F

/-- DISPCH's payload: `v | (DP ‖ 0b0000000)` (R124). -/
def withDp (v : Byte) (dp : Bool) : Byte := v ||| (BitVec.ofBool dp ++ 0#7)

/-- AUXDOT's payload: `(B << 4)[7:0]` (R125). -/
def auxPayload (flags : Byte) : Byte := flags <<< 4

/-- The segments of a digit and its decimal point (R86). -/
inductive Segment where
  | dp
  | a
  | b
  | c
  | d
  | e
  | f
  | g
  deriving DecidableEq, Repr

/-- `SEG_ORDER`: the bit of a pattern that drives a segment (R86). -/
def Segment.bit : Segment → Nat
  | .dp => 7
  | .a => 6
  | .b => 5
  | .c => 4
  | .d => 3
  | .e => 2
  | .f => 1
  | .g => 0

/-- The segment is lit in a pattern: "A bit value of 1 means lit" (R86). -/
def lit (pattern : Byte) (s : Segment) : Bool := pattern.getLsbD s.bit

/-- The pattern that lights exactly the listed segments (R86). -/
def patternOf (segs : List Segment) : Byte := segs.foldl (fun v s => v ||| (1#8 <<< s.bit)) 0

end Sys2Proof.Machine
end

