-- ==== Sys2Proof/Machine/Ops.lean ====
section
/-! DEFINITION. The shared operations: the device register space, the line events with the receiver's reactions, the latch,
accepting a command, the reset. There is no taking of an exception and no return from one: the set of exceptions is empty
(60_exceptions.md R140, R145, R146). -/

namespace Sys2Proof

/-- The level of one line. -/
def Lines.get (l : Lines) : LineId → Bool
  | .data => l.data
  | .clock => l.clock
  | .load => l.load

/-- Set one line; the other two keep their levels (10_state.md R22). -/
def Lines.set (l : Lines) (id : LineId) (level : Bool) : Lines :=
  match id with
  | .data => { l with data := level }
  | .clock => { l with clock := level }
  | .load => { l with load := level }

namespace Machine

/-- The canonical form: addresses strictly rising. No entry can equal what an unlisted address reads as, since such an
address holds no value. -/
abbrev Memory.wf (m : Memory) : Prop := (m.map Prod.fst).Pairwise (· < ·)

/-- The value at an address, if one was ever latched there (R35). -/
def Memory.read (m : Memory) (a : Nat) : Option Byte := m.lookup a

/-- Replace the whole value at an address (R29: "A write replaces the whole 8-bit value"). -/
def Memory.write : Memory → Nat → Byte → Memory
  | [], a, v => [(a, v)]
  | (b, w) :: m, a, v =>
    if a < b then (a, v) :: (b, w) :: m
    else if a = b then (a, v) :: m
    else (b, w) :: Memory.write m a v

/-- Put the sequencer at a position, with what is left of the inputs (R24). -/
def State.moveTo (s : State) (seq : Seq) (inputs : List Input) : State := { s with seq := seq, inputs := inputs }

/-- Append to the frame trace (R34). -/
def recordFrame (a d : Byte) (s : State) : State := { s with frameTrace := s.frameTrace ++ [frameWord (a, d)] }

/-- The latch of a frame with a recognised address: the frame is recorded and `DS[a] <- d` (R34). The shift register keeps
its value. -/
def latchInto (r : DevReg) (d : Byte) (s : State) : State :=
  { recordFrame (s.cfg.regMap.addr r) d s with ds := s.ds.write (s.cfg.regMap.addr r).toNat d }

/-- The receiver's latch of whatever the shift register holds (R34): an unrecognised address leaves `DS` unchanged
(90_conflicts.md C3; notes/assumptions/12.md). -/
def latch (s : State) : State :=
  match s.cfg.regMap.find (frameAddr s.rxShift) with
  | some r => latchInto r (frameData s.rxShift) s
  | none => recordFrame (frameAddr s.rxShift) (frameData s.rxShift) s

/-- `RX_SHIFT <- RX_SHIFT[14:0] ‖ DATA` (R33). -/
def shiftIn (rx : BitVec 16) (bit : Bool) : BitVec 16 := rx.extractLsb' 0 15 ++ BitVec.ofBool bit

/-- The levels after a list of line events. -/
def linesAfter (l : Lines) (es : List LineEvent) : Lines := es.foldl (fun l e => l.set e.id e.level) l

/-- The triples (DATA, CLOCK, LOAD) after each event that changes a level, from given levels: the line waveform that a list of
line events adds (R9, 41_protocol_transmitter.md R111). -/
def triplesFrom (l : Lines) : List LineEvent → List Lines
  | [] => []
  | e :: es =>
    if l.get e.id = e.level then triplesFrom l es
    else l.set e.id e.level :: triplesFrom (l.set e.id e.level) es

/-- Put one line at a level; a change of the level joins the waveform (R22, R9, 41_protocol_transmitter.md R111). -/
def State.setLine (s : State) (e : LineEvent) : State :=
  { s with lines := s.lines.set e.id e.level, waveform := s.waveform ++ triplesFrom s.lines [e] }

/-- Replace the record of what the block wrote. -/
def State.withWritten (s : State) (w : Memory) : State := { s with written := w }

/-- The event raises its line (00_scope.md section 6: "A rising edge of a line is an event that changes its level from 0 to
1"). -/
def LineEvent.rises (e : LineEvent) (l : Lines) : Bool := e.level && !l.get e.id

/-- The event lowers its line. -/
def LineEvent.falls (e : LineEvent) (l : Lines) : Bool := !e.level && l.get e.id

/-- `emit L(id, level)` with the receiver's shift: the event joins the call trace, the line takes the level, and a rising
edge of CLOCK shifts the current level of DATA in, whatever LOAD is (R22, R33; notes/assumptions/22.md). A latch is taken by `loadRises`' caller. -/
def emitLine (e : LineEvent) (s : State) : State :=
  { s.setLine e with
    callTrace := s.callTrace ++ [.line e]
    rxShift := if e.id = .clock ∧ e.rises s.lines = true then shiftIn s.rxShift s.lines.data else s.rxShift }

/-- The event is a rising edge of LOAD, at which the receiver latches (R34). -/
def loadRises (e : LineEvent) (s : State) : Bool := decide (e.id = .load) && e.rises s.lines

/-- `emit Q(v)`: a result event; nothing is kept of it but its place in the call trace (R28). -/
def emitResult (v : Byte) (s : State) : State := { s with callTrace := s.callTrace ++ [.result v] }

/-- Accept a command: `SEQ <- RUN(cw, 0, 0)`, no event (R24). A word presented while a command runs is not accepted and
changes nothing (R26; notes/assumptions/10.md). -/
def accept (cw : CmdWord) (s : State) : State :=
  match s.seq with
  | .idle => s.moveTo (.run cw 0 0) s.inputs
  | .run _ _ _ => s

/-- One line takes its `RESET_LINES` level, with the edge the receiver sees (R166): a rise of LOAD latches, a rise of CLOCK
shifts; a rise of CLOCK while LOAD is low leaves the shift register at a free value (93_implementation_defined.md U6). A
change joins the waveform, and no event joins the call trace (R160: reset "emits no event"; notes/assumptions/17.md). -/
def resetLine (s : State) (id : LineId) : State :=
  let e : LineEvent := ⟨id, s.cfg.resetLines.get id⟩
  let t := s.setLine e
  if e.rises s.lines then
    match id with
    | .data => t
    | .clock =>
      { t with rxShift := if s.lines.load then shiftIn s.rxShift s.lines.data else Config.freeShift s.draws }
    | .load => latch t
  else t

/-- The six orders of three line changes. -/
def lineOrder (n : Fin 6) : List LineId :=
  match n with
  | 0 => [.data, .clock, .load]
  | 1 => [.data, .load, .clock]
  | 2 => [.clock, .data, .load]
  | 3 => [.clock, .load, .data]
  | 4 => [.load, .data, .clock]
  | 5 => [.load, .clock, .data]

/-- Count one drawn free value (notes/assumptions/5.md). -/
def State.drawn (s : State) : State := { s with draws := s.draws + 1 }

/-- The reset of the block (R160, R161, R162): `SEQ` is IDLE, the command in progress is abandoned, no event is emitted, the
device keeps what it holds. The three lines take `RESET_LINES` one after another in a free order, and the receiver sees the
edges that makes (R166, R22; notes/assumptions/17.md). -/
def blockReset (s : State) : State :=
  ((lineOrder (Config.freeResetOrder s.draws)).foldl resetLine (s.moveTo .idle s.inputs)).drawn

/-- Power-up of the device while the block runs: the shift register takes an unspecified value (R164) and every entry of `DS`
holds "no value" (R163), so nothing is there that the block wrote; the block is not affected. -/
def devicePowerUp (s : State) : State :=
  { s with rxShift := Config.freePowerUp s.draws, ds := [], written := [], draws := s.draws + 1 }

end Machine

end Sys2Proof
end

