-- ==== Sys2Proof/Machine/Display.lean ====
section
/-! DEFINITION. The nine display control commands (42_display_control.md): the frames each sends, and its acceptance. -/

namespace Sys2Proof.Machine

/-- The eight digit writes of "clear all", ascending (R123, D14). -/
def framesClrall (cfg : Config) : List Frame := DevReg.digits.map fun r => (cfg.regMap.addr r, 0x00)

/-- INIT's thirteen frames (R121). -/
def framesInit (cfg : Config) : List Frame :=
  [(cfg.regMap.addr .scanLimit, cfg.scanAll),
   (cfg.regMap.addr .decodeMode, 0x00),
   (cfg.regMap.addr .shutdown, 0x01),
   (cfg.regMap.addr .displayTest, 0x00)] ++
  (DevReg.digits.map fun r => (cfg.regMap.addr r, 0x00)) ++
  [(cfg.regMap.addr .intensity, 0x0F)]

/-- SETBRT's frame: `B & 0x0F` to the intensity register (R122). -/
def framesSetbrt (cfg : Config) (b : Byte) : List Frame := [(cfg.regMap.addr .intensity, brightness b)]

/-- DISPCH's frame: the position byte itself is the address (R124, D7). -/
def framesDispch (cfg : Config) (p c : Byte) (dp : Bool) : List Frame := [(p, withDp (lookup cfg c) dp)]

/-- AUXDOT's frame (R125). -/
def framesAuxdot (cfg : Config) (flags : Byte) : List Frame := [(cfg.auxAddr, auxPayload flags)]

/-- SHDNON's frame: shutdown register 0 (R127). -/
def framesShdnon (cfg : Config) : List Frame := [(cfg.regMap.addr .shutdown, 0x00)]

/-- SHDNOFF's frame: shutdown register 1 (R128). -/
def framesShdnoff (cfg : Config) : List Frame := [(cfg.regMap.addr .shutdown, 0x01)]

/-- TESTON's frame: display-test register 1 (R129). -/
def framesTeston (cfg : Config) : List Frame := [(cfg.regMap.addr .displayTest, 0x01)]

/-- TESTOFF's frame: display-test register 0 (R130). -/
def framesTestoff (cfg : Config) : List Frame := [(cfg.regMap.addr .displayTest, 0x00)]

/-- INIT (R121) is accepted; its frames go out in the steps that follow (10_state.md R24). -/
def execInit (s : State) : Host.Outcome State Fault Refusal := .next (accept (cmdWord 0x3 false 0 0) s)

/-- SETBRT (R122). -/
def execSetbrt (b : Byte) (s : State) : Host.Outcome State Fault Refusal := .next (accept (cmdWord 0x4 false 0 b) s)

/-- CLRALL (R123). -/
def execClrall (s : State) : Host.Outcome State Fault Refusal := .next (accept (cmdWord 0x5 false 0 0) s)

/-- DISPCH (R124). -/
def execDispch (p c : Byte) (dp : Bool) (s : State) : Host.Outcome State Fault Refusal :=
  .next (accept (cmdWord 0x6 dp p c) s)

/-- AUXDOT (R125). -/
def execAuxdot (flags : Byte) (s : State) : Host.Outcome State Fault Refusal :=
  .next (accept (cmdWord 0x7 false 0 flags) s)

/-- SHDNON (R127). -/
def execShdnon (s : State) : Host.Outcome State Fault Refusal := .next (accept (cmdWord 0x8 false 0 0) s)

/-- SHDNOFF (R128). -/
def execShdnoff (s : State) : Host.Outcome State Fault Refusal := .next (accept (cmdWord 0x9 false 0 0) s)

/-- TESTON (R129). -/
def execTeston (s : State) : Host.Outcome State Fault Refusal := .next (accept (cmdWord 0xA false 0 0) s)

/-- TESTOFF (R130). -/
def execTestoff (s : State) : Host.Outcome State Fault Refusal := .next (accept (cmdWord 0xB false 0 0) s)

end Sys2Proof.Machine
end

