-- ==== Sys2Proof/Machine/Transmitter.lean ====
section
/-! DEFINITION. The Protocol Transmitter: the 51 events of a frame and the WRREG command (41_protocol_transmitter.md). -/

namespace Sys2Proof.Machine

/-- The event at index k of a frame (R102), `none` where there is no such index. -/
def frameEvent (F : FrameWord) (k : Nat) : Option LineEvent :=
  if k = 0 then some ⟨.load, true⟩
  else if k ≤ 48 then
    match (k - 1) % 3 with
    | 0 => some ⟨.data, F.getLsbD (15 - (k - 1) / 3)⟩
    | 1 => some ⟨.clock, false⟩
    | _ => some ⟨.clock, true⟩
  else if k = 49 then some ⟨.load, false⟩
  else if k = 50 then some ⟨.load, true⟩
  else none

/-- `SendFrame(a, d)` as the list R101 writes: LOAD high, then for each bit DATA, CLOCK low, CLOCK high, then LOAD low and
high. -/
def sendFrame (F : FrameWord) : List LineEvent :=
  ⟨.load, true⟩ ::
    ((List.range 16).flatMap fun j => [⟨.data, F.getLsbD (15 - j)⟩, ⟨.clock, false⟩, ⟨.clock, true⟩]) ++
    [⟨.load, false⟩, ⟨.load, true⟩]

/-- WRREG's one frame (R100). -/
def framesWrreg (a d : Byte) : List Frame := [(a, d)]

/-- WRREG (R100): the command is accepted; its frame goes out in the 51 steps that follow (10_state.md R24). -/
def execWrreg (a d : Byte) (s : State) : Host.Outcome State Fault Refusal :=
  .next (accept (cmdWord 0x2 false a d) s)

end Sys2Proof.Machine
end

