-- ==== Sys2Proof/Machine/Control.lean ====
section
/-! DEFINITION. The step rule of the serializer (10_state.md R24): the frame table, the next position, what a step does. -/

namespace Sys2Proof.Machine

/-- `frame(cw, 0) ... frame(cw, nframes(cw) - 1)` of a command (42_display_control.md R133). LOOKUP sends none; a FRAME16
row is no command of the serializer and sends none. -/
def commandFrames (cfg : Config) : Instr → List Frame
  | .lookup _ => []
  | .wrreg a d => framesWrreg a d
  | .init => framesInit cfg
  | .setbrt b => framesSetbrt cfg b
  | .clrall => framesClrall cfg
  | .dispch p c dp => framesDispch cfg p c dp
  | .auxdot flags => framesAuxdot cfg flags
  | .shdnon => framesShdnon cfg
  | .shdnoff => framesShdnoff cfg
  | .teston => framesTeston cfg
  | .testoff => framesTestoff cfg
  | .frameNoop _ | .frameDigit1 _ | .frameDigit2 _ | .frameDigit3 _ | .frameDigit4 _ | .frameDigit5 _
  | .frameDigit6 _ | .frameDigit7 _ | .frameDigit8 _ | .frameDecode _ | .frameIntensity _ | .frameScanLimit _
  | .frameShutdown _ | .frameDisplayTest _ => []

/-- The position after event k of frame f of a command with n frames (R24). -/
def nextSeq (cw : CmdWord) (n f k : Nat) : Seq :=
  if k < 50 then .run cw f (k + 1)
  else if f + 1 < n then .run cw (f + 1) 0
  else .idle

/-- The event at a position and the number of frames of its command; `none` where no command has the position (R23). -/
def eventAt (cfg : Config) (cw : CmdWord) (f k : Nat) : Option (LineEvent × Nat) :=
  match decodeCommand cw with
  | .error _ => none
  | .ok i =>
    match (commandFrames cfg i)[f]? with
    | none => none
    | some fr => (frameEvent (frameWord fr) k).map fun e => (e, (commandFrames cfg i).length)

/-- `frame(cw, f)`, `none` where the command has no frame f (10_state.md R23). -/
def frameAt (cfg : Config) (cw : CmdWord) (f : Nat) : Option Frame :=
  match decodeCommand cw with
  | .error _ => none
  | .ok i => (commandFrames cfg i)[f]?

/-- The record of what the block wrote, after event k of frame f: event 50 "commits a write" (20_memory.md R53;
notes/assumptions/25.md). -/
def commit (cfg : Config) (cw : CmdWord) (f k : Nat) (w : Memory) : Memory :=
  if k = 50 then
    match frameAt cfg cw f with
    | some fr => w.write fr.1.toNat fr.2
    | none => w
  else w

/-- The same record after a reset: a reset that raises LOAD just before event 50 latches the frame after all
(70_reset_and_hazards.md R166). -/
def resetCommit (s : State) : Memory :=
  match s.seq with
  | .idle => s.written
  | .run cw f k => if s.cfg.resetLines.load && !s.lines.load then commit s.cfg cw f k s.written else s.written

/-- The outside leaves the block its step: no reset and no power-up of the device comes first. -/
def blockMoves : List Input → Bool
  | .reset :: _ => false
  | .devicePowerUp :: _ => false
  | _ => true

/-- The inputs after one step in which no command is accepted: a command word stays at the port (R26). -/
def tick : List Input → List Input
  | [] => []
  | .command cw :: rest => .command cw :: rest
  | .quiet :: rest => rest
  | .reset :: rest => rest
  | .devicePowerUp :: rest => rest

/-- What one step is: a finished move, an instruction to execute, the outcome `refuse` (R64), or a position that does not
exist (R25). -/
inductive Move where
  | done (s : State)
  | run (i : Instr) (s : State)
  | refuse (why : DecodeError)
  | stuck

/-- A rising edge of LOAD has just been emitted: the latched frame is the receiver's instruction; one whose address has no
row is recorded and changes nothing (R34). -/
def latchMove (s : State) : Move :=
  match decodeFrame s.cfg.regMap s.rxShift with
  | .ok i => .run i s
  | .error _ => .done (latch s)

/-- Emit a line event, and latch if it raises LOAD. -/
def lineMove (e : LineEvent) (s : State) : Move :=
  if loadRises e s then latchMove (emitLine e s) else .done (emitLine e s)

/-- A step with `SEQ` = IDLE: a presented word is executed or refused, and `SEQ` stays IDLE while nothing is presented
(R24, R25). -/
def idleMove (s : State) : Move :=
  match s.inputs with
  | .command cw :: rest =>
    match decodeCommand cw with
    | .ok i => .run i { s with inputs := rest }
    | .error why => .refuse why
  | other => .done { s with inputs := tick other }

/-- A step with `SEQ` = `RUN(cw, f, k)`: one event, and the next position (R24); event 50 commits the
frame's write (20_memory.md R53). -/
def runMove (cw : CmdWord) (f k : Nat) (s : State) : Move :=
  match eventAt s.cfg cw f k with
  | none => .stuck
  | some (e, n) => lineMove e ((s.moveTo (nextSeq cw n f k) (tick s.inputs)).withWritten (commit s.cfg cw f k s.written))

/-- A step that the outside takes: a reset of the block (R160, R166) or a power-up of the device (R163, R164); the block emits
nothing in it (notes/assumptions/23.md). -/
def outsideMove (s : State) : State :=
  match s.inputs with
  | .reset :: rest => blockReset ((s.moveTo s.seq rest).withWritten (resetCommit s))
  | .devicePowerUp :: rest => devicePowerUp (s.moveTo s.seq rest)
  | _ => s

/-- What the next step does (R24). -/
def nextMove (s : State) : Move :=
  if blockMoves s.inputs then
    match s.seq with
    | .idle => idleMove s
    | .run cw f k => runMove cw f k s
  else .done (outsideMove s)

/-- The state in which the very next step latches the frame `w`: the receiver holds its 16 bits, LOAD is low, and `SEQ` is
at event 50, the LOAD rising edge that commits the write (20_memory.md R53), of the WRREG that sends them. -/
def placeFrame (w : FrameWord) (s : State) : State :=
  { s with
    inputs := .quiet :: s.inputs
    seq := .run (cmdWord 0x2 false (frameAddr w) (frameData w)) 0 50
    lines := s.lines.set .load false
    rxShift := w }

/-- The state in which the very next step takes the command word `w` from the port. -/
def placeCommand (w : CmdWord) (s : State) : State := { s with inputs := .command w :: s.inputs, seq := .idle }

end Sys2Proof.Machine
end

