-- ==== Sys2Proof/Machine/Encoder.lean ====
section
/-! DEFINITION. The Segment Encoder's command (40_segment_encoder.md). -/

namespace Sys2Proof.Machine

/-- LOOKUP (R80): `Q(lookup(B))`; `SEQ` stays IDLE, no line event. Presented while a command runs it is not accepted and
changes nothing (10_state.md R26). -/
def execLookup (c : Byte) (s : State) : Host.Outcome State Fault Refusal :=
  match s.seq with
  | .idle => .next (emitResult (lookup s.cfg c) s)
  | .run _ _ _ => .next s

end Sys2Proof.Machine
end

