-- ==== Sys2Proof/Machine/Receiver.lean ====
section
/-! DEFINITION. The FRAME16 rows: what the receiver does when it latches a frame (10_state.md R34, 30_encoding.md
R71; notes/assumptions/7.md). -/

namespace Sys2Proof.Machine

/-- FRAME.NOOP: the frame is recorded; 0x00 is not a recognised address, so `DS` is unchanged (R34, R30). -/
def execFrameNoop (d : Byte) (s : State) : Host.Outcome State Fault Refusal := .next (recordFrame regNoop d s)

/-- The latch of a frame to the digit register of position 1 (R34). -/
def execFrameDigit1 (d : Byte) (s : State) : Host.Outcome State Fault Refusal := .next (latchInto .digit1 d s)

/-- The latch of a frame to the digit register of position 2 (R34). -/
def execFrameDigit2 (d : Byte) (s : State) : Host.Outcome State Fault Refusal := .next (latchInto .digit2 d s)

/-- The latch of a frame to the digit register of position 3 (R34). -/
def execFrameDigit3 (d : Byte) (s : State) : Host.Outcome State Fault Refusal := .next (latchInto .digit3 d s)

/-- The latch of a frame to the digit register of position 4 (R34). -/
def execFrameDigit4 (d : Byte) (s : State) : Host.Outcome State Fault Refusal := .next (latchInto .digit4 d s)

/-- The latch of a frame to the digit register of position 5 (R34). -/
def execFrameDigit5 (d : Byte) (s : State) : Host.Outcome State Fault Refusal := .next (latchInto .digit5 d s)

/-- The latch of a frame to the digit register of position 6 (R34). -/
def execFrameDigit6 (d : Byte) (s : State) : Host.Outcome State Fault Refusal := .next (latchInto .digit6 d s)

/-- The latch of a frame to the digit register of position 7 (R34). -/
def execFrameDigit7 (d : Byte) (s : State) : Host.Outcome State Fault Refusal := .next (latchInto .digit7 d s)

/-- The latch of a frame to the digit register of position 8 (R34). -/
def execFrameDigit8 (d : Byte) (s : State) : Host.Outcome State Fault Refusal := .next (latchInto .digit8 d s)

/-- The latch of a frame to the decode-mode register (R34). -/
def execFrameDecode (d : Byte) (s : State) : Host.Outcome State Fault Refusal := .next (latchInto .decodeMode d s)

/-- The latch of a frame to the intensity register, all 8 bits (R35; 90_conflicts.md C9) (R34). -/
def execFrameIntensity (d : Byte) (s : State) : Host.Outcome State Fault Refusal := .next (latchInto .intensity d s)

/-- The latch of a frame to the scan-limit register (R34). -/
def execFrameScanLimit (d : Byte) (s : State) : Host.Outcome State Fault Refusal := .next (latchInto .scanLimit d s)

/-- The latch of a frame to the shutdown register (R34). -/
def execFrameShutdown (d : Byte) (s : State) : Host.Outcome State Fault Refusal := .next (latchInto .shutdown d s)

/-- The latch of a frame to the display-test register (R34). -/
def execFrameDisplayTest (d : Byte) (s : State) : Host.Outcome State Fault Refusal := .next (latchInto .displayTest d s)

end Sys2Proof.Machine
end

