-- ==== Sys2Proof/Machine/Dispatch.lean ====
section
/-! DEFINITION. One arm per row of the opcode table. -/

namespace Sys2Proof.Machine

def exec (i : Instr) (s : State) : Host.Outcome State Fault Refusal :=
  match i with
  | .lookup c => Sys2Proof.Machine.execLookup c s
  | .wrreg a d => Sys2Proof.Machine.execWrreg a d s
  | .init => Sys2Proof.Machine.execInit s
  | .setbrt b => Sys2Proof.Machine.execSetbrt b s
  | .clrall => Sys2Proof.Machine.execClrall s
  | .dispch p c dp => Sys2Proof.Machine.execDispch p c dp s
  | .auxdot flags => Sys2Proof.Machine.execAuxdot flags s
  | .shdnon => Sys2Proof.Machine.execShdnon s
  | .shdnoff => Sys2Proof.Machine.execShdnoff s
  | .teston => Sys2Proof.Machine.execTeston s
  | .testoff => Sys2Proof.Machine.execTestoff s
  | .frameNoop d => Sys2Proof.Machine.execFrameNoop d s
  | .frameDigit1 d => Sys2Proof.Machine.execFrameDigit1 d s
  | .frameDigit2 d => Sys2Proof.Machine.execFrameDigit2 d s
  | .frameDigit3 d => Sys2Proof.Machine.execFrameDigit3 d s
  | .frameDigit4 d => Sys2Proof.Machine.execFrameDigit4 d s
  | .frameDigit5 d => Sys2Proof.Machine.execFrameDigit5 d s
  | .frameDigit6 d => Sys2Proof.Machine.execFrameDigit6 d s
  | .frameDigit7 d => Sys2Proof.Machine.execFrameDigit7 d s
  | .frameDigit8 d => Sys2Proof.Machine.execFrameDigit8 d s
  | .frameDecode d => Sys2Proof.Machine.execFrameDecode d s
  | .frameIntensity d => Sys2Proof.Machine.execFrameIntensity d s
  | .frameScanLimit d => Sys2Proof.Machine.execFrameScanLimit d s
  | .frameShutdown d => Sys2Proof.Machine.execFrameShutdown d s
  | .frameDisplayTest d => Sys2Proof.Machine.execFrameDisplayTest d s

end Sys2Proof.Machine
end

