-- ==== Sys2Proof/Machine/Step.lean ====
section
/-! DEFINITION. One step of the machine (10_state.md R24), and where the next instruction is taken from. -/

namespace Sys2Proof.Machine

/-- One step: a next state or `refuse` (60_exceptions.md R142); a fault only from a position no command has (R25). -/
def step (s : State) : Host.Outcome State Fault Refusal :=
  match nextMove s with
  | .done t => .next t
  | .run i t => exec i t
  | .refuse why => .refused (.spellsNoCommand why)
  | .stuck => .fault .seqOutOfRange

/-- A 24-bit word is a command at the host port; a 16-bit word is a frame the receiver is about to latch
(notes/assumptions/3.md, 7.md). -/
def State.withFetchWord (s : State) (nbits w : Nat) : State :=
  if nbits = 16 then placeFrame (BitVec.ofNat 16 w) s else placeCommand (BitVec.ofNat 24 w) s

end Sys2Proof.Machine
end

