-- ==== Sys2Proof/Machine/Flags.lean ====
section
/-! DEFINITION. The block's one status output. There are no condition codes and no other flag (10_state.md R27). -/

namespace Sys2Proof.Machine

/-- `BUSY`: 1 when `SEQ` is `RUN(...)`, 0 when it is IDLE; a function of `SEQ`, not a register (R27). -/
def busy (s : State) : Bool :=
  match s.seq with
  | .idle => false
  | .run _ _ _ => true

end Sys2Proof.Machine
end

