-- ==== Sys2Proof/Machine/Views.lean ====
section
/-! DEFINITION. What a run is observed by (00_scope.md R9) and the named views of `DS` (10_state.md R31, R35). No
instruction reads any of it. -/

namespace Sys2Proof.Machine

/-- A claim's read of `DS`: an entry that holds "no value" faults, and so does an address without an entry (R35, R163). -/
def readDS (s : State) (a : Byte) : Except Fault Byte :=
  match s.cfg.regMap.find a with
  | none => .error (.dsNoEntry a)
  | some _ =>
    match s.ds.read a.toNat with
    | some v => .ok v
    | none => .error (.dsNoValue a)

/-- The last-written value of a device register (R35). -/
def readReg (s : State) (r : DevReg) : Except Fault Byte := readDS s (s.cfg.regMap.addr r)

/-- The two states of the shutdown register (R31). -/
inductive PowerView where
  | shutdown
  | normal
  deriving DecidableEq, Repr

/-- The two states of the display-test register (R31). -/
inductive TestView where
  | test
  | normal
  deriving DecidableEq, Repr

/-- shutdown/normal = `DS[REG_SHUTDOWN]`: "0 = shutdown, 1 = normal operation"; other values have no meaning (R31, U4). -/
def powerView (s : State) : Except Fault (Option PowerView) := do
  let v ← readReg s .shutdown
  return if v = 0x00 then some .shutdown else if v = 0x01 then some .normal else none

/-- test/normal = `DS[REG_DISPLAY_TEST]` (R31, R35). -/
def testView (s : State) : Except Fault (Option TestView) := do
  let v ← readReg s .displayTest
  return if v = 0x01 then some .test else if v = 0x00 then some .normal else none

/-- intensity = `DS[REG_INTENSITY][3:0]` (R35). -/
def intensityView (s : State) : Except Fault (BitVec 4) := do
  let v ← readReg s .intensity
  return v.extractLsb' 0 4

/-- The source's `effectiveBrightness`: the value the intensity register holds (91_not_in_source.md N24). -/
def effectiveBrightness (s : State) : Except Fault Byte := readReg s .intensity

/-- The one state of the decode-mode register that the source names (R31). -/
inductive DecodeView where
  | noDecode
  deriving DecidableEq, Repr

/-- decode mode = `DS[REG_DECODE_MODE]`: 0x00 is no-decode; other values have no meaning (R31, U4;
notes/assumptions/24.md). -/
def decodeView (s : State) : Except Fault (Option DecodeView) := do
  let v ← readReg s .decodeMode
  return if v = 0x00 then some .noDecode else none

/-- The one state of the scan-limit register that the source names (R31). -/
inductive ScanView where
  | full
  deriving DecidableEq, Repr

/-- scan limit = `DS[REG_SCAN_LIMIT]`: `SCAN_ALL` is the full scan; other values have no meaning (R31, U4;
notes/assumptions/24.md). -/
def scanView (s : State) : Except Fault (Option ScanView) := do
  let v ← readReg s .scanLimit
  return if v = s.cfg.scanAll then some .full else none

/-- Whether the bit of a segment says lit in a digit register, by its fields DP and SEG (R31, R86). Only a digit register has
segments, and only in no-decode mode are they driven as given (R31); elsewhere there is no answer. That this is a view of the
two registers alone, whatever scan limit, shutdown and display test hold, is the model's choice: what the glass shows is not
in the spec (R7, 91_not_in_source.md N1; notes/assumptions/24.md). -/
def segmentView (s : State) (r : DevReg) (seg : Segment) : Except Fault (Option Bool) := do
  if r ∈ DevReg.digits then
    match ← decodeView s with
    | some .noDecode => do
      let v ← readReg s r
      return some (lit v seg)
    | none => return none
  else return none

/-- The device is "{Uninitialized}": some entry of `DS` holds "no value", or a value the block did not write
(42_display_control.md R134; notes/assumptions/25.md). -/
def uninitialized (s : State) : Bool :=
  DevReg.all.any fun r =>
    (s.ds.read (s.cfg.regMap.addr r).toNat).isNone ||
      s.ds.read (s.cfg.regMap.addr r).toNat != s.written.read (s.cfg.regMap.addr r).toNat

/-- The result events of a call trace, in order (R28). -/
def results (es : List Event) : List Byte :=
  es.filterMap fun e =>
    match e with
    | .result v => some v
    | .line _ => none

/-- The line events of a call trace, in order. -/
def lineEvents (es : List Event) : List LineEvent :=
  es.filterMap fun e =>
    match e with
    | .result _ => none
    | .line e => some e

/-- How many rising edges of a line a list of events makes from given levels. -/
def risesOf (id : LineId) (l : Lines) : List LineEvent → Nat
  | [] => 0
  | e :: es => (if e.id = id ∧ e.rises l = true then 1 else 0) + risesOf id (l.set e.id e.level) es

/-- How many falling edges of a line a list of events makes from given levels. -/
def fallsOf (id : LineId) (l : Lines) : List LineEvent → Nat
  | [] => 0
  | e :: es => (if e.id = id ∧ e.falls l = true then 1 else 0) + fallsOf id (l.set e.id e.level) es

end Sys2Proof.Machine
end

