-- ==== Sys2Proof/Safety.lean ====
section
/-! DEFINITION. The terms the claims are stated in: the invariant of every reachable state, and what a command that has
run to its end has done. -/

namespace Sys2Proof.Machine

/-- No reset and no power-up of the device is coming: only commands and waiting. -/
def undisturbed (inputs : List Input) : Bool := inputs.all fun a => a != .reset && a != .devicePowerUp

/-- The inputs after n steps in which no command is accepted. -/
def ticks : Nat → List Input → List Input
  | 0, inputs => inputs
  | n + 1, inputs => ticks n (tick inputs)

/-- The frame being sent at a position, as 16 bits (10_state.md R23). -/
def currentFrame (cfg : Config) (cw : CmdWord) (f : Nat) : Option FrameWord := (frameAt cfg cw f).map frameWord

/-- The levels every frame but the first after a reset starts from: CLOCK = 1 and LOAD = 1 (41_protocol_transmitter.md
R103). -/
def steady (l : Lines) : Prop := l.clock = true ∧ l.load = true

/-- The levels between commands: as reset left them, or steady (70_reset_and_hazards.md R161, R103). -/
def resting (cfg : Config) (l : Lines) : Prop := l = cfg.resetLines ∨ steady l

/-- `SEQ` holds no value outside the ranges of R23 (R25). -/
def seqInRange (cfg : Config) : Seq → Prop
  | .idle => True
  | .run cw f k => ∃ i, decodeCommand cw = .ok i ∧ f < (commandFrames cfg i).length ∧ k ≤ 50

/-- The levels of the lines just before event k of frame f, which sends F (41_protocol_transmitter.md R102, R103, R106,
R107). -/
structure LinesAt (cfg : Config) (F : FrameWord) (f k : Nat) (l : Lines) : Prop where
  first : k = 0 → f = 0 → resting cfg l
  between : k = 0 → 0 < f → steady l
  loadHigh : 1 ≤ k → k ≤ 49 → l.load = true
  loadLow : k = 50 → l.load = false
  clockStart : 1 ≤ k → k ≤ 2 → (f = 0 ∧ l.clock = cfg.resetLines.clock) ∨ l.clock = true
  clockLow : k ≤ 48 → 1 ≤ k → (k - 1) % 3 = 2 → l.clock = false
  clockHigh : 4 ≤ k → k ≤ 50 → (k ≤ 48 → (k - 1) % 3 ≠ 2) → l.clock = true
  dataSet : 1 ≤ k → k ≤ 48 → (k - 1) % 3 ≠ 0 → l.data = F.getLsbD (15 - (k - 1) / 3)
  dataLast : 49 ≤ k → l.data = F.getLsbD 0

/-- The lines fit the sequencer's position. -/
def linesFit (s : State) : Prop :=
  match s.seq with
  | .idle => resting s.cfg s.lines
  | .run cw f k => ∀ F, currentFrame s.cfg cw f = some F → LinesAt s.cfg F f k s.lines

/-- The invariant that every step keeps from every state that meets it. -/
structure StateInv (s : State) : Prop where
  configWf : s.cfg.wf = true
  dsWf : Memory.wf s.ds
  writtenWf : Memory.wf s.written
  dsRecognised : ∀ c ∈ s.ds, ∃ r, (s.cfg.regMap.addr r).toNat = c.1
  position : seqInRange s.cfg s.seq
  lines : linesFit s

/-- The receiver holds the bits of the current frame sent so far in its low end (10_state.md R33, R36): before event k they
are the first (k - 1) div 3 bits of F. -/
def framed (s : State) : Prop :=
  ∀ cw f k F, s.seq = .run cw f k → currentFrame s.cfg cw f = some F →
    ∀ j, j < (k - 1) / 3 → s.rxShift.getLsbD ((k - 1) / 3 - 1 - j) = F.getLsbD (15 - j)

/-- Two triples of levels differ in exactly one line (10_state.md R22). -/
def oneLineApart (l l' : Lines) : Prop := ∃ id, l' = l.set id (!l.get id)

/-- The waveform ends at the levels there are, and each of its triples differs from the one before in exactly one line
(00_scope.md R9, 10_state.md R22). -/
structure WaveFits (s : State) : Prop where
  last : s.waveform.getLast? = some s.lines
  steps : s.waveform.IsChain oneLineApart

/-- The next step latches a frame that is not one the block has just sent: event 0 of a first frame with LOAD low
(70_reset_and_hazards.md R171). -/
def spuriousNext (s : State) : Prop := blockMoves s.inputs = true ∧ s.lines.load = false ∧ ∃ cw, s.seq = .run cw 0 0

/-- What the first frame latches at its event 0 if LOAD is low: whatever the shift register holds
(70_reset_and_hazards.md R171). -/
def spurious (s : State) : List FrameWord := if s.lines.load then [] else [s.rxShift]

/-- `DS` after the receiver has latched a list of frames (10_state.md R34, R35). -/
def deliver (m : RegMap) (ds : Memory) (ws : List FrameWord) : Memory :=
  ws.foldl (fun ds w => if (m.find (frameAddr w)).isSome then ds.write (frameAddr w).toNat (frameData w) else ds) ds

/-- The record of what the block wrote, after it has written a list of frames (20_memory.md R53). -/
def commitAll (w : Memory) (fs : List Frame) : Memory := fs.foldl (fun w fr => w.write fr.1.toNat fr.2) w

/-- `t` is where the block stands when it has sent exactly the frames `fs`, the last of them `fr`, since the idle state `s`:
`SEQ` is IDLE again, the call trace has grown by the 51 events of each frame, every frame was latched in order after the one
spurious frame a low LOAD may give, `DS` holds what they delivered, the waveform has grown by the
level changes of those events, and the lines and the shift register are as the last
frame leaves them (20_memory.md R51, R52, 41_protocol_transmitter.md R103, R105, 42_display_control.md R120). -/
structure Sent (fs : List Frame) (fr : Frame) (s t : State) : Prop where
  cfg : t.cfg = s.cfg
  seq : t.seq = .idle
  inputs : t.inputs = ticks (51 * fs.length) s.inputs
  lines : t.lines = ⟨(frameWord fr).getLsbD 0, true, true⟩
  rxShift : t.rxShift = frameWord fr
  ds : t.ds = deliver s.cfg.regMap s.ds (spurious s ++ fs.map frameWord)
  callTrace : t.callTrace = s.callTrace ++ fs.flatMap fun fr => (sendFrame (frameWord fr)).map .line
  waveform : t.waveform = s.waveform ++ triplesFrom s.lines (fs.flatMap fun fr => sendFrame (frameWord fr))
  frameTrace : t.frameTrace = s.frameTrace ++ spurious s ++ fs.map frameWord
  written : t.written = commitAll s.written fs
  draws : t.draws = s.draws

/-- n steps of the machine, stopping at the first fault or refusal (the same as `Host.Core.run` of `core`). -/
def run : Nat → State → Host.Outcome State Fault Refusal
  | 0, s => .next s
  | n + 1, s =>
    match step s with
    | .next t => run n t
    | .fault r => .fault r
    | .refused r => .refused r

/-- The command `i`, executed in the idle state `s`, is accepted as the word `cw`, and in 51 steps for each of its frames it
runs to its end `t`. -/
def runsTo (i : Instr) (cw : CmdWord) (s t : State) : Prop :=
  exec i s = .next (s.moveTo (.run cw 0 0) s.inputs) ∧
    run (51 * (commandFrames s.cfg i).length) (s.moveTo (.run cw 0 0) s.inputs) = .next t

/-- The events a command emits (R24, R80, 41_protocol_transmitter.md R101): LOOKUP its one result event, every other command
the events of its frames. -/
def commandEvents (cfg : Config) : Instr → List Event
  | .lookup c => [.result (lookup cfg c)]
  | i => (commandFrames cfg i).flatMap fun fr => (sendFrame (frameWord fr)).map .line

/-- The word of a command, `none` for a frame. -/
def commandWord (m : RegMap) (i : Instr) : Option CmdWord :=
  match encode m i with
  | .cmd w => some w
  | .frame _ => none

/-- A host that presents the commands of a list one after another and then nothing. -/
def program (m : RegMap) (is : List Instr) : List Input := is.filterMap fun i => (commandWord m i).map .command

/-- The frames a list of commands sends, in order (20_memory.md R51). -/
def programFrames (cfg : Config) (is : List Instr) : List Frame := is.flatMap (commandFrames cfg)

/-- The steps a list of commands takes: one to accept each, and 51 for each frame (R24). -/
def programSteps (cfg : Config) (is : List Instr) : Nat := is.length + 51 * (programFrames cfg is).length

end Sys2Proof.Machine
end

