-- ==== Sys2Proof/Certificates/Slice0/Obligations.lean ====
section
/-! DEFINITION. The statements for the provers. Each docstring names the rule of spec/ it comes from. -/

open Sys2Proof
open Sys2Proof.Machine

/-! ### Encodings -/

/-- Decoding the encoding of any of the 25 instructions, with any operands, gives it back, under every admissible `REGMAP`
(30_encoding.md sections 1, 3 and 5; CMD24 is the spec's decision D2; what map is admissible is notes/assumptions/8.md). -/
def Obligations.DecodeInvertsEncode : Prop :=
  ∀ (m : RegMap) (i : Instr), m.wf = true → decode m (encode m i) = .ok i

/-- Each word of either format has one meaning: encoding what a word decodes to gives the word, under every map
(30_encoding.md sections 1 and 5; CMD24 is the spec's decision D2). -/
def Obligations.EncodeInvertsDecode : Prop :=
  ∀ (m : RegMap) (w : TableWord) (i : Instr), decode m w = .ok i → encode m i = w

/-- A 24-bit word decodes exactly when it matches one of the eleven (match, mask) rows (30_encoding.md section 1; the spec's
decisions D2 and D3). -/
def Obligations.DecoderAcceptsExactlyTheRows : Prop :=
  ∀ cw : CmdWord, (∃ i, decodeCommand cw = .ok i) ↔ ∃ row ∈ opcodeRows, rowMatches cw row = true

/-- "The masks of rule R62 say the same thing bit for bit" as the rule that unused fields are zero (30_encoding.md
section 1; the spec's decision D3). -/
def Obligations.MasksSayUnusedFieldsAreZero : Prop :=
  ∀ cw : CmdWord, (∃ row ∈ opcodeRows, rowMatches cw row = true) ↔ (CmdFields.ofWord cw).wf = true

/-- "The rows' (match, mask) pairs are disjoint, so at most one row matches any word" (30_encoding.md section 1; the
spec's decision D2). -/
def Obligations.AtMostOneRowMatches : Prop :=
  ∀ (cw : CmdWord) (row row' : CmdWord × CmdWord), row ∈ opcodeRows → row' ∈ opcodeRows →
    rowMatches cw row = true → rowMatches cw row' = true → row = row'

/-- Words written out from the spec's encodings (95_test_vectors.md section 2) decode to the instructions they stand for. -/
def Obligations.SpecWordsDecode : Prop :=
  decodeTableWord 24 0x100061 = some (.lookup 0x61) ∧
  decodeTableWord 24 0x2001F7 = some (.wrreg 0x01 0xF7) ∧
  decodeTableWord 24 0x300000 = some .init ∧
  decodeTableWord 24 0x400014 = some (.setbrt 20) ∧
  decodeTableWord 24 0x610141 = some (.dispch 1 0x41 true) ∧
  decodeTableWord 24 0x700007 = some (.auxdot 0x07) ∧
  decodeTableWord 24 0x300001 = none ∧
  decodeTableWord 24 0x620000 = none ∧
  decodeTableWord 16 0x0A05 = some (.frameIntensity 0x05) ∧
  decodeTableWord 16 0x0D07 = none

/-- What the textual form of a command says is read back as the command, every command has one, and a character operand in
quotes is read as its ASCII code, none outside ASCII (30_encoding.md section 7; the syntax is the spec's decision D2; that
the form is a line already split into a mnemonic and number or character operands is the model's choice,
notes/assumptions/20.md). -/
def Obligations.TextReadsBack : Prop :=
  (∀ (i : Instr) (l : AsmLine), i.toAsm = some l → assemble l = some i) ∧
  (∀ (m : RegMap) (i : Instr), (commandWord m i).isSome = true → ∃ l, i.toAsm = some l) ∧
  (∀ c : Char, c.toNat < 128 →
    assemble ⟨"LOOKUP", [.chr c]⟩ = some (.lookup (BitVec.ofNat 8 c.toNat)) ∧
    ∀ p dp, assemble ⟨"DISPCH", [p, .chr c, dp]⟩ = assemble ⟨"DISPCH", [p, .num c.toNat, dp]⟩) ∧
  ∀ c : Char, 128 ≤ c.toNat →
    assemble ⟨"LOOKUP", [.chr c]⟩ = none ∧ ∀ p dp, assemble ⟨"DISPCH", [p, .chr c, dp]⟩ = none

/-- The API's `dotFlag` byte: 0x80 is `DP` = 1, 0 is `DP` = 0, and no command expresses another value (30_encoding.md
section 4; the spec's decision D15). -/
def Obligations.DotFlagBecomesOneBit : Prop :=
  ∀ p c flag : Byte,
    (flag = 0x80 → (ApiCall.displayCharacter p c flag).toInstr = some (.dispch p c true)) ∧
    (flag = 0x00 → (ApiCall.displayCharacter p c flag).toInstr = some (.dispch p c false)) ∧
    (flag ≠ 0x80 → flag ≠ 0x00 → (ApiCall.displayCharacter p c flag).toInstr = none)

/-! ### The character ROM -/

/-- "For characters absent from the table, returns the "blank" pattern (all segment bits 0)", whatever the table is (40 R84): a
location that the table, extended by `ROM_EXT`, does not populate holds 0x00, so does LOOKUP's answer for a character
normalised to one, no segment of 0x00 is lit, and the default space reads the same. -/
def Obligations.AbsentCharacterIsBlank : Prop :=
  (∀ (cfg : Config) (c : Byte), (∀ e ∈ cfg.rom ++ cfg.romExt, e.1 ≠ c) → romRead cfg c = 0x00) ∧
  (∀ (cfg : Config) (c : Byte), (∀ e ∈ cfg.rom ++ cfg.romExt, e.1 ≠ normalise c) → lookup cfg c = 0x00) ∧
  (∀ seg : Segment, lit 0x00 seg = false) ∧ lookup Config.default 0x20 = 0x00

/-- `lookup(c) = lookup(toUppercase(c))` for every character and every table, and in every admissible one 'A' and 'a' give
0x77 (40_segment_encoder.md sections 1 and 3; that characters are ASCII bytes is the spec's decision D12). -/
def Obligations.LookupIgnoresCase : Prop :=
  ∀ (cfg : Config) (c : Byte),
    (0x61 ≤ c.toNat → c.toNat ≤ 0x7A → lookup cfg c = lookup cfg (c - 0x20)) ∧
    (cfg.wf = true → lookup cfg 0x41 = 0x77 ∧ lookup cfg 0x61 = 0x77)

/-- In an admissible configuration every entry of the ROM and of `ROM_EXT` is what LOOKUP reads at its key: the extension
shadows nothing and is shadowed by nothing (40_segment_encoder.md section 3). -/
def Obligations.EveryRomEntryIsReadAtItsKey : Prop :=
  ∀ (cfg : Config) (c v : Byte), cfg.wf = true → (c, v) ∈ cfg.rom ∨ (c, v) ∈ cfg.romExt → lookup cfg c = v

/-- The default ROM holds for each of its 18 characters the pattern of the segments the spec lists (40_segment_encoder.md
section 3; the glyphs are the spec's general knowledge), and blank everywhere else. -/
def Obligations.DefaultRomLightsTheListedSegments : Prop :=
  let glyphs : List (Byte × List Segment) :=
    [(0x20, []), (0x2E, [.dp]), (0x30, [.a, .b, .c, .d, .e, .f]), (0x31, [.b, .c]), (0x32, [.a, .b, .d, .e, .g]),
     (0x33, [.a, .b, .c, .d, .g]), (0x34, [.b, .c, .f, .g]), (0x35, [.a, .c, .d, .f, .g]),
     (0x36, [.a, .c, .d, .e, .f, .g]), (0x37, [.a, .b, .c]), (0x38, [.a, .b, .c, .d, .e, .f, .g]),
     (0x39, [.a, .b, .c, .d, .f, .g]), (0x41, [.a, .b, .c, .e, .f, .g]), (0x42, [.c, .d, .e, .f, .g]),
     (0x43, [.a, .d, .e, .f]), (0x44, [.b, .c, .d, .e, .g]), (0x45, [.a, .d, .e, .f, .g]), (0x46, [.a, .e, .f, .g])]
  (∀ g ∈ glyphs, romRead Config.default g.1 = patternOf g.2) ∧
  ∀ c : Byte, c ∉ glyphs.map Prod.fst → romRead Config.default c = 0x00

/-! ### One step -/

/-- A step with `SEQ` = IDLE and a word at the port that decodes is the execution of that instruction, the word taken from
the port (10_state.md section 4; the step and the handshake are the spec's decisions D1 and D4, the list of inputs is the
model's, notes/assumptions/3.md). -/
def Obligations.PresentedCommandIsExecuted : Prop :=
  ∀ (s : State) (cw : CmdWord) (rest : List Input) (i : Instr),
    s.seq = .idle → s.inputs = .command cw :: rest → decodeCommand cw = .ok i →
      step s = exec i { s with inputs := rest }

/-- A step whose event raises LOAD over a shift register that decodes is the execution of that frame, after the event has
been emitted, the sequencer moved on and the write committed (10_state.md sections 4 and 8, 20_memory.md section 8; that the
frame rows are executed here is the model's reading, notes/assumptions/7.md, and the record of what the block wrote is the
model's own, notes/assumptions/25.md). -/
def Obligations.LatchedFrameIsExecuted : Prop :=
  ∀ (s : State) (cw : CmdWord) (f k n : Nat) (i : Instr),
    blockMoves s.inputs = true → s.seq = .run cw f k → eventAt s.cfg cw f k = some (⟨.load, true⟩, n) →
    s.lines.load = false → decodeFrame s.cfg.regMap s.rxShift = .ok i →
      step s = exec i { s with
        seq := nextSeq cw n f k
        inputs := tick s.inputs
        lines := ⟨s.lines.data, s.lines.clock, true⟩
        callTrace := s.callTrace ++ [.line ⟨.load, true⟩]
        waveform := s.waveform ++ [⟨s.lines.data, s.lines.clock, true⟩]
        written := commit s.cfg cw f k s.written }

/-- A presented word that matches no row has the outcome `refuse` (30_encoding.md section 2; the spec's decision D3). -/
def Obligations.WordOfNoRowIsRefused : Prop :=
  ∀ (s : State) (cw : CmdWord) (rest : List Input),
    s.seq = .idle → s.inputs = .command cw :: rest → (∀ row ∈ opcodeRows, rowMatches cw row = false) →
      ∃ why, step s = .refused (.spellsNoCommand why)

/-- With nothing presented the block stays IDLE and nothing changes; with the host waiting, only the wait passes
(10_state.md section 4; the list of inputs is the model's, notes/assumptions/3.md). -/
def Obligations.IdleBlockWaits : Prop :=
  ∀ (s : State) (rest : List Input), s.seq = .idle →
    (s.inputs = [] → step s = .next s) ∧ (s.inputs = .quiet :: rest → step s = .next { s with inputs := rest })

/-- A word presented while a command runs is not accepted and not lost: a step leaves it at the port, and executing a command
in a busy block changes nothing (10_state.md section 4; the spec's decision D4, notes/assumptions/10.md). -/
def Obligations.BusyBlockHoldsTheWordAtThePort : Prop :=
  (∀ (s t : State) (cw cw' : CmdWord) (f k : Nat) (rest : List Input),
    s.seq = .run cw f k → s.inputs = .command cw' :: rest → step s = .next t → t.inputs = s.inputs) ∧
  ∀ (s : State) (cw cw' : CmdWord) (f k : Nat) (i : Instr),
    s.seq = .run cw f k → decodeCommand cw' = .ok i → exec i s = .next s

/-- At a position of a command a step emits that position's event, puts the line at its level, which joins the waveform if it is
a change, and moves to the next position: the next event of the frame, the next frame, or IDLE (10_state.md section 4,
41_protocol_transmitter.md section 1; the spec's decision D1). -/
def Obligations.StepEmitsThePositionsEvent : Prop :=
  ∀ (s : State) (cw : CmdWord) (i : Instr) (fr : Frame) (f k : Nat),
    blockMoves s.inputs = true → s.seq = .run cw f k → decodeCommand cw = .ok i →
    (commandFrames s.cfg i)[f]? = some fr → k ≤ 50 →
      ∃ t e, step s = .next t ∧ (sendFrame (frameWord fr))[k]? = some e ∧
        t.callTrace = s.callTrace ++ [.line e] ∧ t.lines = s.lines.set e.id e.level ∧
        t.waveform = (if t.lines = s.lines then s.waveform else s.waveform ++ [t.lines]) ∧
        t.seq = (if k < 50 then .run cw f (k + 1)
                 else if f + 1 < (commandFrames s.cfg i).length then .run cw (f + 1) 0 else .idle) ∧
        t.cfg = s.cfg ∧ t.draws = s.draws ∧ t.inputs = tick s.inputs

/-- "a line register changes only by a line event `L(id, level)`, and each event names exactly one line" (10 R22): a step of
the block either changes no line, or emits one line event and changes at most that event's line. -/
def Obligations.OneLineEventMovesOneLine : Prop :=
  ∀ s t : State, blockMoves s.inputs = true → step s = .next t →
    (t.lines ≠ s.lines → ∃ e, t.callTrace = s.callTrace ++ [.line e] ∧ t.lines = s.lines.set e.id e.level) ∧
    ∀ id id', t.lines.get id ≠ s.lines.get id → t.lines.get id' ≠ s.lines.get id' → id = id'

/-- The receiver's shift (10 R33): at a rising edge of CLOCK the low end takes the level of DATA and every older bit moves
up; in every other step of the block the shift register keeps its value. -/
def Obligations.ReceiverShiftsOnClockRise : Prop :=
  ∀ s t : State, blockMoves s.inputs = true → step s = .next t →
    (s.lines.clock = false → t.lines.clock = true →
      t.rxShift.getLsbD 0 = s.lines.data ∧ ∀ j, j < 15 → t.rxShift.getLsbD (j + 1) = s.rxShift.getLsbD j) ∧
    (¬(s.lines.clock = false ∧ t.lines.clock = true) → t.rxShift = s.rxShift)

/-- The receiver's latch, atomic (10_state.md section 8, 20_memory.md section 4): at a rising edge of LOAD the whole shift
register joins the frame trace, `DS[a]` becomes d if a is recognised, and the shift register keeps its value; in every other
step of the block neither the frame trace nor `DS` changes. That `DS` is unchanged at an unrecognised address rests on
90_conflicts.md C3 and notes/assumptions/12.md (DEDUCED): it is an assumption about the device. -/
def Obligations.ReceiverLatchesOnLoadRise : Prop :=
  ∀ s t : State, blockMoves s.inputs = true → step s = .next t →
    (s.lines.load = false → t.lines.load = true →
      t.frameTrace = s.frameTrace ++ [s.rxShift] ∧ t.rxShift = s.rxShift ∧
      (∀ r, s.cfg.regMap.addr r = s.rxShift.extractLsb' 8 8 →
        t.ds.read (s.rxShift.extractLsb' 8 8).toNat = some (s.rxShift.extractLsb' 0 8) ∧
        ∀ a, a ≠ (s.rxShift.extractLsb' 8 8).toNat → t.ds.read a = s.ds.read a) ∧
      ((∀ r, s.cfg.regMap.addr r ≠ s.rxShift.extractLsb' 8 8) → t.ds = s.ds)) ∧
    (¬(s.lines.load = false ∧ t.lines.load = true) → t.frameTrace = s.frameTrace ∧ t.ds = s.ds)

/-- An event that sets a line to the level it has joins the call trace and changes nothing on the lines, in the waveform or at
the receiver (41_protocol_transmitter.md section 1, 92_eei_decisions.md D17; the record of what the block wrote is the model's
own, notes/assumptions/25.md). -/
def Obligations.RepeatedLevelChangesNothing : Prop :=
  ∀ (s : State) (cw : CmdWord) (f k n : Nat) (e : LineEvent),
    blockMoves s.inputs = true → s.seq = .run cw f k → eventAt s.cfg cw f k = some (e, n) →
    s.lines.get e.id = e.level →
      step s = .next { s with
        seq := nextSeq cw n f k
        inputs := tick s.inputs
        callTrace := s.callTrace ++ [.line e]
        written := commit s.cfg cw f k s.written }

/-- "The ROM, `REGMAP`, `AUX_ADDR` and `SCAN_ALL` are constants; reset does not touch them" (70 R162): no step changes the
configuration, which the model carries in its state (notes/assumptions/1.md). -/
def Obligations.ConfigurationIsConstant : Prop :=
  ∀ s t : State, step s = .next t → t.cfg = s.cfg

/-! ### Invariants -/

/-- Every step keeps the invariant: the configuration admissible, `DS` canonical and at recognised addresses only, `SEQ`
inside its ranges, the lines at the levels the position has (10_state.md sections 4 and 8, 41_protocol_transmitter.md section
2).
The invariant also has the canonical form of `DS` and of the model's own record of what the block wrote
(notes/assumptions/11.md and 25.md, DESIGN CHOICE). -/
def Obligations.StepKeepsInvariant : Prop :=
  ∀ s t : State, StateInv s → step s = .next t → StateInv t

/-- The state after power-up meets the invariant for every admissible configuration, so for all eight `RESET_LINES` and any
shift register; nothing is half sent in it and its waveform is the levels there are; the reset state is one of these states
(70_reset_and_hazards.md section 1; the shift register's 0 and the low lines of the reset state are the model's choices,
notes/assumptions/4.md and 2.md).
The invariant also has the canonical form of `DS` and of the model's own record of what the block wrote
(notes/assumptions/11.md and 25.md, DESIGN CHOICE). -/
def Obligations.PowerUpMeetsInvariant : Prop :=
  (∀ (c : Config) (rx : BitVec 16), c.wf = true →
    StateInv (State.powerUp c rx) ∧ framed (State.powerUp c rx) ∧ WaveFits (State.powerUp c rx)) ∧
  StateInv State.reset

/-- Every step but a power-up of the device keeps the shift register in step with the frame being sent
(41_protocol_transmitter.md section 2). -/
def Obligations.StepKeepsFraming : Prop :=
  ∀ s t : State, StateInv s → framed s → s.inputs.head? ≠ some .devicePowerUp → step s = .next t → framed t

/-- Every step keeps the device register space, and the record of what the block wrote, in canonical form, from every state
that has them so (10_state.md section 8 gives `DS`; the list of cells is the model's form of it, notes/assumptions/11.md, and
the record is the model's own, notes/assumptions/25.md). -/
def Obligations.StepKeepsMemoryCanonical : Prop :=
  ∀ s t : State, step s = .next t →
    (Memory.wf s.ds → Memory.wf t.ds) ∧ (Memory.wf s.written → Memory.wf t.written)

/-- From every state that meets the invariant a step has a next state, or it is the outcome `refuse` of a presented word that
spells no command; there is no fault (60_exceptions.md section 1; the spec's decision D21). -/
def Obligations.StepAnswersOrRefuses : Prop :=
  ∀ s : State, StateInv s →
    (∃ t, step s = .next t) ∨
      ∃ cw rest why, s.seq = .idle ∧ s.inputs = .command cw :: rest ∧ decodeCommand cw = .error why ∧
        step s = .refused (.spellsNoCommand why)

/-- A step of the block latches nothing but the frame it has just sent, at the frame's last event, and, at the first event of
a first frame after a reset that left LOAD low, whatever the shift register held (41_protocol_transmitter.md section 2,
70_reset_and_hazards.md section 3). -/
def Obligations.OnlyTheSentFrameIsLatched : Prop :=
  ∀ s t : State, StateInv s → framed s → blockMoves s.inputs = true → step s = .next t → t.frameTrace ≠ s.frameTrace →
    (∃ cw f F, s.seq = .run cw f 50 ∧ currentFrame s.cfg cw f = some F ∧ t.frameTrace = s.frameTrace ++ [F]) ∨
      (∃ cw, s.seq = .run cw 0 0 ∧ s.lines = s.cfg.resetLines ∧ s.cfg.resetLines.load = false ∧
        t.frameTrace = s.frameTrace ++ [s.rxShift])

/-- CLOCK and DATA move only while LOAD is high (41_protocol_transmitter.md section 2). -/
def Obligations.ClockAndDataMoveOnlyWhileLoadIsHigh : Prop :=
  ∀ s t : State, StateInv s → blockMoves s.inputs = true → step s = .next t →
    t.lines.clock ≠ s.lines.clock ∨ t.lines.data ≠ s.lines.data → s.lines.load = true ∧ t.lines.load = true

/-- The order on the wire (20 R43): at the j-th rising edge of CLOCK inside a frame DATA is steady and is the bit of the
frame's address byte, bit 7 first, for the first eight, and of its data byte, bit 7 first, for the last eight; it is what the
receiver shifts in. -/
def Obligations.AddressThenDataMostSignificantBitFirst : Prop :=
  ∀ s t : State, StateInv s → blockMoves s.inputs = true → step s = .next t →
    s.lines.clock = false → t.lines.clock = true →
      ∃ cw i fr f j, s.seq = .run cw f (3 + 3 * j) ∧ j < 16 ∧ decodeCommand cw = .ok i ∧
        (commandFrames s.cfg i)[f]? = some fr ∧ s.lines.data = t.lines.data ∧ t.rxShift.getLsbD 0 = t.lines.data ∧
        t.lines.data = if j < 8 then fr.1.getLsbD (7 - j) else fr.2.getLsbD (15 - j)

/-! ### The frame -/

/-- The sequence `SendFrame` lists is the event function by index: 51 events, the k-th of them event k
(41_protocol_transmitter.md section 1). -/
def Obligations.SendFrameIsTheEventFunction : Prop :=
  ∀ F : FrameWord, (sendFrame F).length = 51 ∧ ∀ k, (sendFrame F)[k]? = frameEvent F k

/-- The edges of a frame from any levels: 16 rises of CLOCK, 16 or 15 falls of it, one fall of LOAD, and one rise of LOAD, two
if LOAD starts low; and the levels it leaves (41_protocol_transmitter.md section 2). -/
def Obligations.EdgesOfAFrame : Prop :=
  ∀ (F : FrameWord) (l : Lines),
    risesOf .clock l (sendFrame F) = 16 ∧
    fallsOf .clock l (sendFrame F) = (if l.clock then 16 else 15) ∧
    fallsOf .load l (sendFrame F) = 1 ∧
    risesOf .load l (sendFrame F) = (if l.load then 1 else 2) ∧
    linesAfter l (sendFrame F) = ⟨F.getLsbD 0, true, true⟩

/-! ### What the instructions do. `Sent` says every field of the state a command ends in, so each statement is the command's
frame too. -/

/-- No command can fail (60_exceptions.md section 1): every one of the 25 instructions has a next state from every state, a
command's being its acceptance (10_state.md section 4). That the 14 frame rows are executed as instructions is the model's
choice (notes/assumptions/7.md, DESIGN CHOICE), and so is what executing a command in a busy block does
(notes/assumptions/10.md, DEDUCED). -/
def Obligations.NoInstructionFails : Prop :=
  ∀ (i : Instr) (s : State), ∃ t, exec i s = .next t

/-- LOOKUP emits `Q(lookup(B))`, the table read at the character made uppercase, and changes nothing else
(40_segment_encoder.md section 4; the result port is the spec's decision D20). -/
def Obligations.LookupEmitsThePattern : Prop :=
  ∀ (s : State) (c : Byte), s.seq = .idle →
    exec (.lookup c) s = .next { s with
      callTrace := s.callTrace ++
        [.result (romRead s.cfg (if 0x61 ≤ c.toNat ∧ c.toNat ≤ 0x7A then c - 0x20 else c))] }

/-- WRREG sends the one frame (A, B): accepted, it is at event n of its frame after n steps with BUSY = 1, and after 51
steps it is over; if A is recognised `DS[A]` is B (41_protocol_transmitter.md section 3). Every other entry is as a spurious
latch before it left it (70_reset_and_hazards.md section 3, R171, which the spec marks derived), and that `DS` is unchanged at
an unrecognised A rests on 90_conflicts.md C3 and notes/assumptions/12.md (DEDUCED).
The record of what the block wrote, which `Sent` tells too, is the model's own (notes/assumptions/25.md, DESIGN CHOICE). -/
def Obligations.WrregSendsItsFrame : Prop :=
  ∀ (s : State) (a d : Byte), s.seq = .idle → undisturbed s.inputs = true →
    (∀ n, n ≤ 50 → ∃ u, run n (s.moveTo (.run (cmdWord 0x2 false a d) 0 0) s.inputs) = .next u ∧
      u.seq = .run (cmdWord 0x2 false a d) 0 n ∧ busy u = true) ∧
    ∃ t, runsTo (.wrreg a d) (cmdWord 0x2 false a d) s t ∧ Sent [(a, d)] (a, d) s t ∧ busy t = false ∧
      (∀ r, s.cfg.regMap.addr r = a → t.ds.read a.toNat = some d) ∧
      ∀ x, x ≠ a.toNat ∨ (∀ r, s.cfg.regMap.addr r ≠ a) →
        t.ds.read x = (deliver s.cfg.regMap s.ds (spurious s)).read x

/-- SETBRT sends `B & 0x0F` to the intensity register (42_display_control.md section 2). A spurious latch may come before it
(70_reset_and_hazards.md section 3, R171, which the spec marks derived), and that one with an unrecognised address leaves `DS`
unchanged rests on 90_conflicts.md C3 and notes/assumptions/12.md (DEDUCED).
The record of what the block wrote, which `Sent` tells too, is the model's own (notes/assumptions/25.md, DESIGN CHOICE). -/
def Obligations.SetbrtSendsTheLowNibble : Prop :=
  ∀ (s : State) (b : Byte), s.seq = .idle → undisturbed s.inputs = true →
    ∃ t, runsTo (.setbrt b) (cmdWord 0x4 false 0 b) s t ∧
      Sent [(s.cfg.regMap.addr .intensity, 0#4 ++ b.extractLsb' 0 4)]
        (s.cfg.regMap.addr .intensity, 0#4 ++ b.extractLsb' 0 4) s t ∧
      effectiveBrightness t = .ok (b &&& 0x0F) ∧ intensityView t = .ok (b.extractLsb' 0 4)

/-- DISPCH sends the pattern of the character, the top bit set if `DP` is 1, to the address that is the position itself
(42_display_control.md section 2; the address is the spec's decision D7). That `DS` is unchanged at an unrecognised position, as
at an unrecognised address of a spurious latch before it (70_reset_and_hazards.md section 3), rests on 90_conflicts.md C3 and
notes/assumptions/12.md (DEDUCED): it is an assumption about the device.
The record of what the block wrote, which `Sent` tells too, is the model's own (notes/assumptions/25.md, DESIGN CHOICE). -/
def Obligations.DispchSendsThePatternToThePosition : Prop :=
  ∀ (s : State) (p c : Byte) (dp : Bool), s.seq = .idle → undisturbed s.inputs = true →
    ∃ t, runsTo (.dispch p c dp) (cmdWord 0x6 dp p c) s t ∧
      Sent [(p, lookup s.cfg c ||| if dp then 0x80 else 0x00)] (p, lookup s.cfg c ||| if dp then 0x80 else 0x00) s t ∧
      ∀ r, s.cfg.regMap.addr r = p → readReg t r = .ok (lookup s.cfg c ||| if dp then 0x80 else 0x00)

/-- DISPCH ends in the same state for a lowercase letter and its uppercase letter (95_test_vectors.md section 1, S6).
The state holds the model's own record of what the block wrote too (notes/assumptions/25.md, DESIGN CHOICE). -/
def Obligations.DispchIgnoresCase : Prop :=
  ∀ (s : State) (p c : Byte) (dp : Bool), s.seq = .idle → undisturbed s.inputs = true →
    0x61 ≤ c.toNat → c.toNat ≤ 0x7A →
      ∃ t, runsTo (.dispch p c dp) (cmdWord 0x6 dp p c) s t ∧
        runsTo (.dispch p (c - 0x20) dp) (cmdWord 0x6 dp p (c - 0x20)) s t

/-- AUXDOT sends `B[3:0] ‖ 0b0000` to `AUX_ADDR` (42_display_control.md section 2; the cut of the shift is D16): the lower
nibble is always 0, and whatever the digit register held is replaced. A spurious latch may come before it
(70_reset_and_hazards.md section 3), and that one with an unrecognised address leaves `DS` unchanged rests on 90_conflicts.md C3
and notes/assumptions/12.md (DEDUCED).
The record of what the block wrote, which `Sent` tells too, is the model's own (notes/assumptions/25.md, DESIGN CHOICE). -/
def Obligations.AuxdotSendsTheFlagsShifted : Prop :=
  ∀ (s : State) (flags : Byte), s.seq = .idle → undisturbed s.inputs = true → s.cfg.wf = true →
    ∃ t, runsTo (.auxdot flags) (cmdWord 0x7 false 0 flags) s t ∧
      Sent [(s.cfg.auxAddr, flags.extractLsb' 0 4 ++ 0#4)] (s.cfg.auxAddr, flags.extractLsb' 0 4 ++ 0#4) s t ∧
      ∃ r ∈ DevReg.digits, s.cfg.regMap.addr r = s.cfg.auxAddr ∧ readReg t r = .ok (flags.extractLsb' 0 4 ++ 0#4)

/-- SHDNON and SHDNOFF write 0 and 1 to the shutdown register; from steady lines every other register keeps its last-written
value through them (42_display_control.md section 2, 60_exceptions.md section 10; which name carries which payload is the
spec's decision D23). From a low LOAD a spurious latch comes before them (70_reset_and_hazards.md section 3, R171, which the
spec marks derived), and that one with an unrecognised address leaves `DS` unchanged rests on 90_conflicts.md C3 and
notes/assumptions/12.md (DEDUCED).
The record of what the block wrote, which `Sent` tells too, is the model's own (notes/assumptions/25.md, DESIGN CHOICE). -/
def Obligations.ShutdownCommandsWriteOneRegister : Prop :=
  ∀ s : State, s.seq = .idle → undisturbed s.inputs = true →
    ∃ t u, runsTo .shdnon (cmdWord 0x8 false 0 0) s t ∧ runsTo .shdnoff (cmdWord 0x9 false 0 0) s u ∧
      Sent [(s.cfg.regMap.addr .shutdown, 0x00)] (s.cfg.regMap.addr .shutdown, 0x00) s t ∧
      Sent [(s.cfg.regMap.addr .shutdown, 0x01)] (s.cfg.regMap.addr .shutdown, 0x01) s u ∧
      powerView t = .ok (some .shutdown) ∧ powerView u = .ok (some .normal) ∧
      (s.lines.load = true → ∀ x, x ≠ (s.cfg.regMap.addr .shutdown).toNat →
        t.ds.read x = s.ds.read x ∧ u.ds.read x = s.ds.read x)

/-- TESTON and TESTOFF write 1 and 0 to the display-test register, and while LOAD is high no other register changes
(42_display_control.md section 2). From a low LOAD a spurious latch comes before them (70_reset_and_hazards.md section 3, R171,
which the spec marks derived), and that one with an unrecognised address leaves `DS` unchanged rests on 90_conflicts.md C3 and
notes/assumptions/12.md (DEDUCED).
The record of what the block wrote, which `Sent` tells too, is the model's own (notes/assumptions/25.md, DESIGN CHOICE). -/
def Obligations.TestCommandsWriteOneRegister : Prop :=
  ∀ s : State, s.seq = .idle → undisturbed s.inputs = true →
    ∃ t u, runsTo .teston (cmdWord 0xA false 0 0) s t ∧ runsTo .testoff (cmdWord 0xB false 0 0) s u ∧
      Sent [(s.cfg.regMap.addr .displayTest, 0x01)] (s.cfg.regMap.addr .displayTest, 0x01) s t ∧
      Sent [(s.cfg.regMap.addr .displayTest, 0x00)] (s.cfg.regMap.addr .displayTest, 0x00) s u ∧
      testView t = .ok (some .test) ∧ testView u = .ok (some .normal) ∧
      (s.lines.load = true → ∀ x, x ≠ (s.cfg.regMap.addr .displayTest).toNat →
        t.ds.read x = s.ds.read x ∧ u.ds.read x = s.ds.read x)

/-- CLRALL sends 0x00 to the eight digit registers, position 1 first, and afterwards each of them holds 0x00
(42_display_control.md section 2; the order is D14). Every other entry is as a spurious latch before it left it
(70_reset_and_hazards.md section 3, R171, which the spec marks derived), and that one with an unrecognised address leaves `DS`
unchanged rests on 90_conflicts.md C3 and notes/assumptions/12.md (DEDUCED).
The record of what the block wrote, which `Sent` tells too, is the model's own (notes/assumptions/25.md, DESIGN CHOICE). -/
def Obligations.ClrallBlanksEveryDigit : Prop :=
  ∀ s : State, s.seq = .idle → undisturbed s.inputs = true →
    ∃ t, runsTo .clrall (cmdWord 0x5 false 0 0) s t ∧
      Sent [(s.cfg.regMap.digit1, 0), (s.cfg.regMap.digit2, 0), (s.cfg.regMap.digit3, 0), (s.cfg.regMap.digit4, 0),
        (s.cfg.regMap.digit5, 0), (s.cfg.regMap.digit6, 0), (s.cfg.regMap.digit7, 0), (s.cfg.regMap.digit8, 0)]
        (s.cfg.regMap.digit8, 0) s t ∧
      (∀ r ∈ DevReg.digits, readReg t r = .ok 0x00) ∧
      ∀ x, (∀ r ∈ DevReg.digits, (s.cfg.regMap.addr r).toNat ≠ x) →
        t.ds.read x = (deliver s.cfg.regMap s.ds (spurious s)).read x

/-- INIT sends its thirteen frames and leaves the device in the known state from any lines, any shift register and any `DS`:
full scan, no decode, normal operation, not in test, all digits blank and so no segment lit, maximum intensity, no entry
without a value or with one the block did not write (42_display_control.md sections 2 and 5; the payloads of scan limit and
decode mode and the order of the digits are D13 and D14; what the views answer for other values and what counts as written by
the block are the model's choices, notes/assumptions/24.md and 25.md). A spurious latch may come before it
(70_reset_and_hazards.md section 3), and that one with an unrecognised address leaves no trace in `DS` rests on 90_conflicts.md C3
and notes/assumptions/12.md (DEDUCED). -/
def Obligations.InitGivesTheKnownState : Prop :=
  ∀ s : State, s.seq = .idle → undisturbed s.inputs = true → s.cfg.wf = true →
    ∃ t, runsTo .init (cmdWord 0x3 false 0 0) s t ∧
      Sent [(s.cfg.regMap.scanLimit, s.cfg.scanAll), (s.cfg.regMap.decodeMode, 0x00), (s.cfg.regMap.shutdown, 0x01),
        (s.cfg.regMap.displayTest, 0x00),
        (s.cfg.regMap.digit1, 0), (s.cfg.regMap.digit2, 0), (s.cfg.regMap.digit3, 0), (s.cfg.regMap.digit4, 0),
        (s.cfg.regMap.digit5, 0), (s.cfg.regMap.digit6, 0), (s.cfg.regMap.digit7, 0), (s.cfg.regMap.digit8, 0),
        (s.cfg.regMap.intensity, 0x0F)] (s.cfg.regMap.intensity, 0x0F) s t ∧
      scanView t = .ok (some .full) ∧ decodeView t = .ok (some .noDecode) ∧ powerView t = .ok (some .normal) ∧
      testView t = .ok (some .normal) ∧ (∀ r ∈ DevReg.digits, readReg t r = .ok 0x00) ∧
      (∀ r ∈ DevReg.digits, ∀ seg, segmentView t r seg = .ok (some false)) ∧
      readReg t .intensity = .ok 0x0F ∧ uninitialized t = false

/-- The thirteen FRAME16 rows with a register: the receiver records the frame and writes its register, and every other entry of
`DS` and every other field is unchanged (10_state.md section 8, 30_encoding.md section 5; the receiver is the spec's decision
D19, that a row is executed as an instruction is notes/assumptions/7.md). -/
def Obligations.FrameRowsWriteTheirRegister : Prop :=
  ∀ (s : State) (d : Byte),
    ∀ row ∈ [(Instr.frameDigit1 d, DevReg.digit1), (.frameDigit2 d, .digit2), (.frameDigit3 d, .digit3),
        (.frameDigit4 d, .digit4), (.frameDigit5 d, .digit5), (.frameDigit6 d, .digit6), (.frameDigit7 d, .digit7),
        (.frameDigit8 d, .digit8), (.frameDecode d, .decodeMode), (.frameIntensity d, .intensity),
        (.frameScanLimit d, .scanLimit), (.frameShutdown d, .shutdown), (.frameDisplayTest d, .displayTest)],
      ∃ ds, exec row.1 s = .next { s with
          ds := ds
          frameTrace := s.frameTrace ++ [s.cfg.regMap.addr row.2 ++ d] } ∧
        ds.read (s.cfg.regMap.addr row.2).toNat = some d ∧
        ∀ a, a ≠ (s.cfg.regMap.addr row.2).toNat → ds.read a = s.ds.read a

/-- The FRAME.NOOP row: the frame with address 0x00 is recorded and nothing else changes (10_state.md section 8; that
an unrecognised address does nothing follows 90_conflicts.md C3, notes/assumptions/12.md; that a row is executed as an
instruction, and this one records the frame only, is the model's choice, notes/assumptions/7.md, DESIGN CHOICE). -/
def Obligations.NoopFrameIsOnlyRecorded : Prop :=
  ∀ (s : State) (d : Byte),
    exec (.frameNoop d) s = .next { s with frameTrace := s.frameTrace ++ [(0x00 : Byte) ++ d] }

/-! ### Runs -/

/-- Commands presented one after another, with any waits of the host between them, run in that order (20_memory.md section 7):
the frame trace is the concatenation of their frames after at most one spurious entry, the call trace the concatenation of
their events, the waveform the level changes of those, and when the last event has been emitted every frame is latched and
nothing is in flight. A wait costs at most its own step (60_exceptions.md section 7). What `DS` holds after a frame with an
unrecognised address rests on notes/assumptions/12.md (DEDUCED). The record of what the block wrote is the model's own
(notes/assumptions/25.md, DESIGN CHOICE). -/
def Obligations.CommandsRunInOrderToCompletion : Prop :=
  ∀ (is : List Instr) (ins : List Input) (s : State), s.seq = .idle → undisturbed ins = true →
    (∀ i ∈ is, (commandWord s.cfg.regMap i).isSome = true) →
    ins.filter (· != .quiet) = program s.cfg.regMap is →
      ∃ n t, programSteps s.cfg is ≤ n ∧ n ≤ programSteps s.cfg is + ins.count .quiet ∧
        run n { s with inputs := ins } = .next t ∧
        t.seq = .idle ∧ t.inputs = [] ∧ t.cfg = s.cfg ∧
        t.callTrace = s.callTrace ++ is.flatMap (commandEvents s.cfg) ∧
        t.waveform = s.waveform ++ triplesFrom s.lines (lineEvents (is.flatMap (commandEvents s.cfg))) ∧
        t.frameTrace = s.frameTrace ++ (if programFrames s.cfg is = [] then [] else spurious s) ++
          (programFrames s.cfg is).map frameWord ∧
        t.ds = deliver s.cfg.regMap s.ds
          ((if programFrames s.cfg is = [] then [] else spurious s) ++ (programFrames s.cfg is).map frameWord) ∧
        t.written = commitAll s.written (programFrames s.cfg is) ∧
        (programFrames s.cfg is = [] → t.rxShift = s.rxShift ∧ t.lines = s.lines) ∧
        ∀ fr, (programFrames s.cfg is).getLast? = some fr →
          t.rxShift = frameWord fr ∧ t.lines = ⟨(frameWord fr).getLsbD 0, true, true⟩

/-- Every command that sends frames ends in the same state as the WRREG commands of those frames, presented one after another
(30_encoding.md section 7).
The state holds the model's own record of what the block wrote too (notes/assumptions/25.md, DESIGN CHOICE). -/
def Obligations.EveryCommandEqualsItsWrregs : Prop :=
  ∀ (i : Instr) (s : State), s.seq = .idle → (commandWord s.cfg.regMap i).isSome = true → commandFrames s.cfg i ≠ [] →
    ∃ t, run (1 + 51 * (commandFrames s.cfg i).length) { s with inputs := program s.cfg.regMap [i] } = .next t ∧
      run (52 * (commandFrames s.cfg i).length)
        { s with inputs := program s.cfg.regMap ((commandFrames s.cfg i).map fun fr => .wrreg fr.1 fr.2) } = .next t

/-- "The call trace of a command is therefore a function of the command word and the configuration alone" (41 R109): one list
of events for all states with that configuration, whatever the lines, the shift register, `DS` and the past. -/
def Obligations.CallTraceDependsOnTheWordAlone : Prop :=
  ∀ (c : Config) (cw : CmdWord) (i : Instr), decodeCommand cw = .ok i →
    ∃ es : List Event, ∀ (s : State) (rest : List Input), s.cfg = c → s.seq = .idle →
      s.inputs = .command cw :: rest → undisturbed rest = true →
        ∃ t, run (1 + 51 * (commandFrames c i).length) s = .next t ∧ t.seq = .idle ∧
          t.callTrace = s.callTrace ++ es

/-- A second write of the same address replaces the whole value: `DS` is as if the first write had not been sent, and writing
the same value twice is writing it once (10_state.md section 7, 20_memory.md section 4). For an unrecognised address, where both
writes leave `DS` unchanged, and for one of a spurious latch before them, it rests on 90_conflicts.md C3 and
notes/assumptions/12.md (DEDUCED): it is an assumption about the device. -/
def Obligations.LastWriteReplacesTheByte : Prop :=
  ∀ (s : State) (a d d' : Byte), s.seq = .idle →
    ∃ t u, run 104 { s with inputs := program s.cfg.regMap [.wrreg a d, .wrreg a d'] } = .next t ∧
      run 52 { s with inputs := program s.cfg.regMap [.wrreg a d'] } = .next u ∧ t.ds = u.ds

/-- Every command ends, after at most 663 events from any position inside it (70 R178). -/
def Obligations.EveryCommandEnds : Prop :=
  ∀ s : State, StateInv s → undisturbed s.inputs = true →
    ∃ n t, n ≤ 663 ∧ run n s = .next t ∧ t.seq = .idle

/-- BUSY is 1 from the acceptance of a command to the step that emits its last event, and 0 after it (10_state.md
section 5; the spec's decision D4). -/
def Obligations.BusyFromAcceptanceToTheLastEvent : Prop :=
  ∀ (s : State) (cw : CmdWord) (i : Instr), s.seq = .idle → undisturbed s.inputs = true → decodeCommand cw = .ok i →
    commandFrames s.cfg i ≠ [] →
      (∀ n, n < 51 * (commandFrames s.cfg i).length →
        ∃ u, run n (s.moveTo (.run cw 0 0) s.inputs) = .next u ∧ busy u = true) ∧
      ∃ t, run (51 * (commandFrames s.cfg i).length) (s.moveTo (.run cw 0 0) s.inputs) = .next t ∧ busy t = false

/-! ### Reset -/

/-- A reset, whatever it interrupts: `SEQ` is IDLE, BUSY 0, the lines are at `RESET_LINES`, no event is emitted, the
configuration stays (70_reset_and_hazards.md section 1; the spec's decision D5). The waveform grows by the changes of the
three lines, one after another in some order: the model's choice of a treatment (notes/assumptions/17.md, DESIGN CHOICE). -/
def Obligations.ResetIdlesTheBlock : Prop :=
  ∀ (s : State) (rest : List Input), s.inputs = .reset :: rest →
    ∃ t, step s = .next t ∧ t.seq = .idle ∧ busy t = false ∧ t.lines = s.cfg.resetLines ∧
      t.callTrace = s.callTrace ∧ t.cfg = s.cfg ∧ t.inputs = rest ∧
      ∃ ids : List LineId, ids.Perm [.data, .clock, .load] ∧
        t.waveform = s.waveform ++ triplesFrom s.lines (ids.map fun id => ⟨id, s.cfg.resetLines.get id⟩)

/-- A reset between commands has no effect on the device, the shift register or `DS` (70_reset_and_hazards.md section 1;
the spec's decision D5); the lines' changes join the waveform one after another, the model's choice of a treatment
(notes/assumptions/17.md, DESIGN CHOICE), and one free value is drawn for their order (notes/assumptions/5.md). -/
def Obligations.ResetWhileIdleLeavesTheDevice : Prop :=
  ∀ (s : State) (rest : List Input), StateInv s → s.seq = .idle → s.inputs = .reset :: rest →
    ∃ ids : List LineId, ids.Perm [.data, .clock, .load] ∧
      step s = .next { s with
        inputs := rest
        lines := s.cfg.resetLines
        waveform := s.waveform ++ triplesFrom s.lines (ids.map fun id => ⟨id, s.cfg.resetLines.get id⟩)
        draws := s.draws + 1 }

/-- A reset between the last two events of a frame: if `RESET_LINES` has LOAD = 1 the reset itself latches the frame after all,
and if it has LOAD = 0 the frame is lost (70_reset_and_hazards.md section 1, 92_eei_decisions.md D25). A definite outcome is
the model's choice (notes/assumptions/17.md, DESIGN CHOICE): the spec also lets a model leave `DS` and the shift register
unspecified after such a reset; that `DS` is unchanged by a frame with an unrecognised address is notes/assumptions/12.md
(DEDUCED). -/
def Obligations.ResetBeforeTheLatch : Prop :=
  ∀ (s : State) (cw : CmdWord) (f : Nat) (F : FrameWord) (rest : List Input), StateInv s → framed s →
    s.seq = .run cw f 50 → currentFrame s.cfg cw f = some F → s.inputs = .reset :: rest →
      ∃ t, step s = .next t ∧ t.rxShift = F ∧
        (s.cfg.resetLines.load = true →
          t.frameTrace = s.frameTrace ++ [F] ∧ t.ds = deliver s.cfg.regMap s.ds [F]) ∧
        (s.cfg.resetLines.load = false → t.frameTrace = s.frameTrace ∧ t.ds = s.ds)

/-- A reset while CLOCK is low inside a frame, with `RESET_LINES` high on CLOCK and LOAD: the receiver shifts one extra bit,
DATA's old or new level, and latches nothing (70_reset_and_hazards.md section 1, 92_eei_decisions.md D25). That the lines
change one after another in a free order is the model's choice (notes/assumptions/17.md, DESIGN CHOICE): the spec also lets a
model leave `DS` and the shift register unspecified after such a reset. -/
def Obligations.ResetShiftsOneExtraBit : Prop :=
  ∀ (s : State) (rest : List Input), s.inputs = .reset :: rest → s.lines.clock = false → s.lines.load = true →
    s.cfg.resetLines.clock = true → s.cfg.resetLines.load = true →
      ∃ t, step s = .next t ∧ t.frameTrace = s.frameTrace ∧ t.ds = s.ds ∧
        (t.rxShift = shiftIn s.rxShift s.lines.data ∨ t.rxShift = shiftIn s.rxShift s.cfg.resetLines.data)

/-- After a power-up of the device no entry of `DS` has a value and reading one faults, so the device is uninitialized, both in
the state after power-up and after a power-up while the block runs, which does not touch the block (70_reset_and_hazards.md section 1; the
spec's decision D19; that the device can be powered up alone at any step is the model's input, notes/assumptions/3.md). -/
def Obligations.PowerUpLeavesNoValue : Prop :=
  (∀ (c : Config) (rx : BitVec 16) (r : DevReg), c.wf = true →
    readReg (State.powerUp c rx) r = .error (.dsNoValue (c.regMap.addr r)) ∧ uninitialized (State.powerUp c rx) = true) ∧
  ∀ (s : State) (rest : List Input) (r : DevReg), s.cfg.wf = true → s.inputs = .devicePowerUp :: rest →
    ∃ t, step s = .next t ∧ readReg t r = .error (.dsNoValue (s.cfg.regMap.addr r)) ∧
      uninitialized t = true ∧ t.seq = s.seq ∧ t.lines = s.lines ∧ t.callTrace = s.callTrace ∧
      t.waveform = s.waveform ∧ t.frameTrace = s.frameTrace ∧ t.cfg = s.cfg ∧ t.inputs = rest

/-! ### The waveform, and what the block wrote -/

/-- Every step, a reset among them, keeps the waveform complete: it ends at the levels there are, and each of its triples
differs from the one before in exactly one line (00_scope.md section 4, 10_state.md section 3, 41_protocol_transmitter.md
section 1; that a reset changes the lines one after another is the model's choice, notes/assumptions/17.md). -/
def Obligations.StepKeepsTheWaveform : Prop :=
  ∀ s t : State, WaveFits s → step s = .next t → WaveFits t

/-- Once every entry of `DS` holds the value the block wrote, as INIT leaves it, every step keeps it so, a reset in the middle
of a frame among them, but for a power-up of the device and for a spurious latch (42_display_control.md section 5,
70_reset_and_hazards.md sections 1 and 3; what counts as written by the block is the model's choice, notes/assumptions/25.md,
and so is the treatment of a reset, notes/assumptions/17.md). That `DS` still holds what the block wrote after a frame with an
unrecognised address rests on 90_conflicts.md C3 and notes/assumptions/12.md (DEDUCED): it is an assumption about the device. -/
def Obligations.StepKeepsTheDeviceInitialised : Prop :=
  ∀ s t : State, StateInv s → framed s → uninitialized s = false → s.inputs.head? ≠ some .devicePowerUp →
    ¬spuriousNext s → step s = .next t → uninitialized t = false

/-- A spurious latch of a value the block did not write, at a recognised address, leaves the device uninitialized although every
entry may hold a value (42_display_control.md section 5, 70_reset_and_hazards.md section 3; what counts as written by the
block is the model's choice, notes/assumptions/25.md). -/
def Obligations.SpuriousLatchLeavesTheDeviceUninitialised : Prop :=
  ∀ (s : State) (r : DevReg), StateInv s → spuriousNext s → s.cfg.regMap.addr r = frameAddr s.rxShift →
    s.written.read (frameAddr s.rxShift).toNat ≠ some (frameData s.rxShift) →
      ∃ t, step s = .next t ∧ readReg t r = .ok (frameData s.rxShift) ∧ uninitialized t = true
end

