-- ==== Sys2Proof/Laws/Encoding.lean ====
section
/-! SUPPORT. The fields of a word go in and come out: what `CmdFields.toWord`, `CmdFields.ofWord` and `frameWord` undo of
each other, and what `RegMap.find` finds. -/

namespace Sys2Proof

/-- Bit i of a command word is the bit its field has there (R61). -/
theorem CmdFields.toWord_bit (f : CmdFields) (i : Nat) :
    f.toWord.getLsbD i =
      if i < 8 then f.b.getLsbD i
      else if i < 16 then f.a.getLsbD (i - 8)
      else if i < 17 then f.dp
      else if i < 20 then f.rsv.getLsbD (i - 17)
      else f.op.getLsbD (i - 20) := by
  show BitVec.getLsbD (w := 4 + 3 + 1 + 8 + 8) (f.op ++ f.rsv ++ BitVec.ofBool f.dp ++ f.a ++ f.b) i = _
  rw [BitVec.getLsbD_append, BitVec.getLsbD_append, BitVec.getLsbD_append, BitVec.getLsbD_append]
  by_cases h1 : i < 8
  · simp [h1]
  by_cases h2 : i < 16
  · have : i - 8 < 8 := by omega
    simp [h1, h2, this]
  have e1 : ¬ i - 8 < 8 := by omega
  by_cases h3 : i < 17
  · have e2 : i - 8 - 8 = 0 := by omega
    simp [h1, h2, h3, e1, e2]
  have e2 : ¬ i - 8 - 8 < 1 := by omega
  have e4 : i - 8 - 8 - 1 = i - 17 := by omega
  have e5 : i - 17 - 3 = i - 20 := by omega
  by_cases h4 : i < 20
  · have e3 : i - 17 < 3 := by omega
    simp [h1, h2, h3, h4, e1, e2, e3, e4]
  · have e3 : ¬ i - 17 < 3 := by omega
    simp [h1, h2, h3, h4, e1, e2, e3, e4, e5]

/-- Bit i of a frame is a bit of its data byte or of its address byte (R65). -/
theorem frameWord_bit (fr : Frame) (i : Nat) :
    (frameWord fr).getLsbD i = if i < 8 then fr.2.getLsbD i else fr.1.getLsbD (i - 8) := by
  show BitVec.getLsbD (w := 8 + 8) (fr.1 ++ fr.2) i = _
  rw [BitVec.getLsbD_append]

/-- A command word's fields, put together and cut apart again. -/
@[simp] theorem CmdFields.ofWord_toWord (f : CmdFields) : CmdFields.ofWord f.toWord = f := by
  have hop : f.toWord.extractLsb' 20 4 = f.op := by
    apply BitVec.eq_of_getLsbD_eq
    intro i hi
    have e : ¬ 20 + i < 8 ∧ ¬ 20 + i < 16 ∧ ¬ 20 + i < 17 ∧ ¬ 20 + i < 20 := by omega
    rw [BitVec.getLsbD_extractLsb', f.toWord_bit]
    simp [hi, e]
  have hrsv : f.toWord.extractLsb' 17 3 = f.rsv := by
    apply BitVec.eq_of_getLsbD_eq
    intro i hi
    have e : ¬ 17 + i < 8 ∧ ¬ 17 + i < 16 ∧ ¬ 17 + i < 17 ∧ 17 + i < 20 := by omega
    rw [BitVec.getLsbD_extractLsb', f.toWord_bit]
    simp [hi, e]
  have hdp : f.toWord.getLsbD 16 = f.dp := by
    rw [f.toWord_bit]
    simp
  have ha : f.toWord.extractLsb' 8 8 = f.a := by
    apply BitVec.eq_of_getLsbD_eq
    intro i hi
    have e : ¬ 8 + i < 8 ∧ 8 + i < 16 := by omega
    rw [BitVec.getLsbD_extractLsb', f.toWord_bit]
    simp [hi, e]
  have hb : f.toWord.extractLsb' 0 8 = f.b := by
    apply BitVec.eq_of_getLsbD_eq
    intro i hi
    have e : 0 + i < 8 := by omega
    rw [BitVec.getLsbD_extractLsb', f.toWord_bit]
    simp [hi]
  unfold CmdFields.ofWord
  rw [hop, hrsv, hdp, ha, hb]

/-- A command word, cut apart and put together again. -/
@[simp] theorem CmdFields.toWord_ofWord (w : CmdWord) : (CmdFields.ofWord w).toWord = w := by
  apply BitVec.eq_of_getLsbD_eq
  intro i hi
  rw [CmdFields.toWord_bit]
  simp only [CmdFields.ofWord, BitVec.getLsbD_extractLsb']
  by_cases h1 : i < 8
  · simp [h1]
  by_cases h2 : i < 16
  · have : i - 8 < 8 := by omega
    have e : 8 + (i - 8) = i := by omega
    simp [h1, h2, this, e]
  by_cases h3 : i < 17
  · have e : i = 16 := by omega
    simp [e]
  by_cases h4 : i < 20
  · have : i - 17 < 3 := by omega
    have e : 17 + (i - 17) = i := by omega
    simp [h1, h2, h3, h4, this, e]
  · have : i - 20 < 4 := by omega
    have e : 20 + (i - 20) = i := by omega
    simp [h1, h2, h3, h4, this, e]

/-- The address byte of a frame that was put together. -/
@[simp] theorem frameAddr_frameWord (fr : Frame) : frameAddr (frameWord fr) = fr.1 := by
  apply BitVec.eq_of_getLsbD_eq
  intro i hi
  have e : ¬ 8 + i < 8 := by omega
  rw [frameAddr, BitVec.getLsbD_extractLsb', frameWord_bit]
  simp [hi]

/-- The data byte of a frame that was put together. -/
@[simp] theorem frameData_frameWord (fr : Frame) : frameData (frameWord fr) = fr.2 := by
  apply BitVec.eq_of_getLsbD_eq
  intro i hi
  rw [frameData, BitVec.getLsbD_extractLsb', frameWord_bit]
  simp [hi]

/-- A frame cut into its bytes and put together again. -/
@[simp] theorem frameWord_bytes (w : FrameWord) : frameWord (frameAddr w, frameData w) = w := by
  apply BitVec.eq_of_getLsbD_eq
  intro i hi
  rw [frameWord_bit]
  simp only [frameAddr, frameData, BitVec.getLsbD_extractLsb']
  by_cases h : i < 8
  · simp [h]
  · have : i - 8 < 8 := by omega
    have e : 8 + (i - 8) = i := by omega
    simp [h, this, e]

/-- When the check of the unused fields lets a command through (R63). -/
theorem CmdFields.unused_eq_ok (f : CmdFields) (usesDp usesA usesB : Bool) (i j : Instr) :
    f.unused usesDp usesA usesB i = .ok j ↔
      f.rsv = 0 ∧ (usesDp = false → f.dp = false) ∧ (usesA = false → f.a = 0) ∧ (usesB = false → f.b = 0) ∧ i = j := by
  unfold CmdFields.unused
  by_cases h1 : f.rsv = 0#3 <;> cases usesDp <;> cases usesA <;> cases usesB <;> cases h2 : f.dp <;>
    by_cases h3 : f.a = 0#8 <;> by_cases h4 : f.b = 0#8 <;> simp [h1, h3, h4]

/-- A packed command word decodes as its fields do. -/
@[simp] theorem decodeCommand_cmdWord (op : BitVec 4) (dp : Bool) (a b : Byte) :
    decodeCommand (cmdWord op dp a b) = CmdFields.decode ⟨op, 0, dp, a, b⟩ := by
  simp [decodeCommand, cmdWord]

/-- The register `find` answers has the address asked for. -/
theorem RegMap.find_addr {m : RegMap} {a : Byte} {r : DevReg} (h : m.find a = some r) : m.addr r = a := by
  simpa using List.find?_some h

/-- Every register is in the list of all of them. -/
theorem DevReg.mem_all (r : DevReg) : r ∈ DevReg.all := by cases r <;> simp [DevReg.all]

/-- An address without a register: no register has it. -/
theorem RegMap.find_none {m : RegMap} {a : Byte} (h : m.find a = none) (r : DevReg) : m.addr r ≠ a := by
  intro e
  have := List.find?_eq_none.mp h r r.mem_all
  simp [e] at this

/-- Under an admissible map two registers with one address are the same register. -/
theorem RegMap.addr_inj {m : RegMap} (h : m.wf = true) {r r' : DevReg} (e : m.addr r = m.addr r') : r = r' := by
  simp only [RegMap.wf, RegMap.distinct, Bool.and_eq_true, decide_eq_true_eq] at h
  exact List.inj_on_of_nodup_map h.1.1 r.mem_all r'.mem_all e

/-- Under an admissible map every register is found at its own address. -/
theorem RegMap.find_of_addr {m : RegMap} (h : m.wf = true) (r : DevReg) : m.find (m.addr r) = some r := by
  cases e : m.find (m.addr r) with
  | none => exact absurd rfl (RegMap.find_none e r)
  | some r' => rw [RegMap.addr_inj h (RegMap.find_addr e)]

/-- Under an admissible map `REG_NOOP` is no register's address. -/
theorem RegMap.find_noop {m : RegMap} (h : m.wf = true) : m.find regNoop = none := by
  cases e : m.find regNoop with
  | none => rfl
  | some r =>
    have ha := RegMap.find_addr e
    simp only [RegMap.wf, RegMap.avoidsNoop, Bool.and_eq_true, List.all_eq_true] at h
    have := h.2 r r.mem_all
    simp [ha] at this

/-- An admissible configuration's map is admissible. -/
theorem Config.wf_regMap {c : Config} (h : c.wf = true) : c.regMap.wf = true := by
  simp only [Config.wf, Bool.and_eq_true] at h
  exact h.1.1.1.1.1

end Sys2Proof
end

