-- ==== Sys2Proof/Laws/PerInstr.lean ====
section
/-! SUPPORT. For every instruction: its word lies in its own row of spec/opcode_table.json (30_encoding.md R62, R71). -/

namespace Sys2Proof

/-- The bits of a word that a row's mask covers; words of two formats have none in common. -/
def TableWord.masked : TableWord → TableWord → Option TableWord
  | .cmd w, .cmd mask => some (.cmd (w &&& mask))
  | .frame w, .frame mask => some (.frame (w &&& mask))
  | _, _ => none

/-- The (match, mask) pair of an instruction's row in spec/opcode_table.json. -/
def Instr.tableRow : Instr → TableWord × TableWord
  | .lookup _ => (.cmd 0x100000, .cmd 0xFFFF00)
  | .wrreg _ _ => (.cmd 0x200000, .cmd 0xFF0000)
  | .init => (.cmd 0x300000, .cmd 0xFFFFFF)
  | .setbrt _ => (.cmd 0x400000, .cmd 0xFFFF00)
  | .clrall => (.cmd 0x500000, .cmd 0xFFFFFF)
  | .dispch _ _ _ => (.cmd 0x600000, .cmd 0xFE0000)
  | .auxdot _ => (.cmd 0x700000, .cmd 0xFFFF00)
  | .shdnon => (.cmd 0x800000, .cmd 0xFFFFFF)
  | .shdnoff => (.cmd 0x900000, .cmd 0xFFFFFF)
  | .teston => (.cmd 0xA00000, .cmd 0xFFFFFF)
  | .testoff => (.cmd 0xB00000, .cmd 0xFFFFFF)
  | .frameNoop _ => (.frame 0x0000, .frame 0xFF00)
  | .frameDigit1 _ => (.frame 0x0100, .frame 0xFF00)
  | .frameDigit2 _ => (.frame 0x0200, .frame 0xFF00)
  | .frameDigit3 _ => (.frame 0x0300, .frame 0xFF00)
  | .frameDigit4 _ => (.frame 0x0400, .frame 0xFF00)
  | .frameDigit5 _ => (.frame 0x0500, .frame 0xFF00)
  | .frameDigit6 _ => (.frame 0x0600, .frame 0xFF00)
  | .frameDigit7 _ => (.frame 0x0700, .frame 0xFF00)
  | .frameDigit8 _ => (.frame 0x0800, .frame 0xFF00)
  | .frameDecode _ => (.frame 0x0900, .frame 0xFF00)
  | .frameIntensity _ => (.frame 0x0A00, .frame 0xFF00)
  | .frameScanLimit _ => (.frame 0x0B00, .frame 0xFF00)
  | .frameShutdown _ => (.frame 0x0C00, .frame 0xFF00)
  | .frameDisplayTest _ => (.frame 0x0F00, .frame 0xFF00)

/-- Two command words meet field by field (R61). -/
theorem CmdFields.toWord_and (f g : CmdFields) :
    f.toWord &&& g.toWord = CmdFields.toWord ⟨f.op &&& g.op, f.rsv &&& g.rsv, f.dp && g.dp, f.a &&& g.a, f.b &&& g.b⟩ := by
  apply BitVec.eq_of_getLsbD_eq
  intro i hi
  rw [BitVec.getLsbD_and, toWord_bit, toWord_bit, toWord_bit]
  repeat' split
  all_goals simp

/-- Under a mask of whole fields a command word keeps those fields. -/
theorem cmdWord_masked (op : BitVec 4) (dp : Bool) (a b : Byte) (g : CmdFields) :
    TableWord.masked (.cmd (cmdWord op dp a b)) (.cmd g.toWord) =
      some (.cmd (CmdFields.toWord ⟨op &&& g.op, 0, dp && g.dp, a &&& g.a, b &&& g.b⟩)) := by
  simp [TableWord.masked, cmdWord, CmdFields.toWord_and]

/-- Under the frame rows' mask a frame keeps its address byte (R65). -/
theorem frameWord_masked (a d : Byte) :
    TableWord.masked (.frame (frameWord (a, d))) (.frame 0xFF00) = some (.frame (frameWord (a, 0))) := by
  have h : frameWord (a, d) &&& frameWord (0xFF, 0x00) = frameWord (a, 0) := by
    apply BitVec.eq_of_getLsbD_eq
    intro i hi
    rw [BitVec.getLsbD_and, frameWord_bit, frameWord_bit, frameWord_bit]
    split
    · simp
    · have ha : a &&& 0xFF = a := BitVec.and_allOnes
      rw [← BitVec.getLsbD_and, ha]
  exact congrArg (fun w => some (TableWord.frame w)) h

end Sys2Proof

/-- The word of the instruction, under the default map, is in its row: masked with the row's mask it is the row's match. -/
def Sys2Proof.Laws.TableRow.Statement (i : Sys2Proof.Instr) : Prop :=
  (Sys2Proof.encode Sys2Proof.RegMap.default i).masked i.tableRow.2 = some i.tableRow.1

theorem Sys2Proof.Laws.TableRow.lookup (c : Sys2Proof.Byte) : Sys2Proof.Laws.TableRow.Statement (.lookup c) := by
  refine (Sys2Proof.cmdWord_masked 0x1 false 0 c ⟨0xF, 7, true, 0xFF, 0x00⟩).trans ?_
  simp [Sys2Proof.Instr.tableRow, Sys2Proof.CmdFields.toWord]

theorem Sys2Proof.Laws.TableRow.wrreg (a : Sys2Proof.Byte) (d : Sys2Proof.Byte) : Sys2Proof.Laws.TableRow.Statement (.wrreg a d) := by
  refine (Sys2Proof.cmdWord_masked 0x2 false a d ⟨0xF, 7, true, 0x00, 0x00⟩).trans ?_
  simp [Sys2Proof.Instr.tableRow, Sys2Proof.CmdFields.toWord]

theorem Sys2Proof.Laws.TableRow.init : Sys2Proof.Laws.TableRow.Statement .init := rfl

theorem Sys2Proof.Laws.TableRow.setbrt (b : Sys2Proof.Byte) : Sys2Proof.Laws.TableRow.Statement (.setbrt b) := by
  refine (Sys2Proof.cmdWord_masked 0x4 false 0 b ⟨0xF, 7, true, 0xFF, 0x00⟩).trans ?_
  simp [Sys2Proof.Instr.tableRow, Sys2Proof.CmdFields.toWord]

theorem Sys2Proof.Laws.TableRow.clrall : Sys2Proof.Laws.TableRow.Statement .clrall := rfl

theorem Sys2Proof.Laws.TableRow.dispch (p : Sys2Proof.Byte) (c : Sys2Proof.Byte) (dp : Bool) : Sys2Proof.Laws.TableRow.Statement (.dispch p c dp) := by
  refine (Sys2Proof.cmdWord_masked 0x6 dp p c ⟨0xF, 7, false, 0x00, 0x00⟩).trans ?_
  simp [Sys2Proof.Instr.tableRow, Sys2Proof.CmdFields.toWord]

theorem Sys2Proof.Laws.TableRow.auxdot (f : Sys2Proof.Byte) : Sys2Proof.Laws.TableRow.Statement (.auxdot f) := by
  refine (Sys2Proof.cmdWord_masked 0x7 false 0 f ⟨0xF, 7, true, 0xFF, 0x00⟩).trans ?_
  simp [Sys2Proof.Instr.tableRow, Sys2Proof.CmdFields.toWord]

theorem Sys2Proof.Laws.TableRow.shdnon : Sys2Proof.Laws.TableRow.Statement .shdnon := rfl

theorem Sys2Proof.Laws.TableRow.shdnoff : Sys2Proof.Laws.TableRow.Statement .shdnoff := rfl

theorem Sys2Proof.Laws.TableRow.teston : Sys2Proof.Laws.TableRow.Statement .teston := rfl

theorem Sys2Proof.Laws.TableRow.testoff : Sys2Proof.Laws.TableRow.Statement .testoff := rfl

theorem Sys2Proof.Laws.TableRow.frameNoop (d : Sys2Proof.Byte) : Sys2Proof.Laws.TableRow.Statement (.frameNoop d) :=
  Sys2Proof.frameWord_masked 0x00 d

theorem Sys2Proof.Laws.TableRow.frameDigit1 (d : Sys2Proof.Byte) : Sys2Proof.Laws.TableRow.Statement (.frameDigit1 d) :=
  Sys2Proof.frameWord_masked 0x01 d

theorem Sys2Proof.Laws.TableRow.frameDigit2 (d : Sys2Proof.Byte) : Sys2Proof.Laws.TableRow.Statement (.frameDigit2 d) :=
  Sys2Proof.frameWord_masked 0x02 d

theorem Sys2Proof.Laws.TableRow.frameDigit3 (d : Sys2Proof.Byte) : Sys2Proof.Laws.TableRow.Statement (.frameDigit3 d) :=
  Sys2Proof.frameWord_masked 0x03 d

theorem Sys2Proof.Laws.TableRow.frameDigit4 (d : Sys2Proof.Byte) : Sys2Proof.Laws.TableRow.Statement (.frameDigit4 d) :=
  Sys2Proof.frameWord_masked 0x04 d

theorem Sys2Proof.Laws.TableRow.frameDigit5 (d : Sys2Proof.Byte) : Sys2Proof.Laws.TableRow.Statement (.frameDigit5 d) :=
  Sys2Proof.frameWord_masked 0x05 d

theorem Sys2Proof.Laws.TableRow.frameDigit6 (d : Sys2Proof.Byte) : Sys2Proof.Laws.TableRow.Statement (.frameDigit6 d) :=
  Sys2Proof.frameWord_masked 0x06 d

theorem Sys2Proof.Laws.TableRow.frameDigit7 (d : Sys2Proof.Byte) : Sys2Proof.Laws.TableRow.Statement (.frameDigit7 d) :=
  Sys2Proof.frameWord_masked 0x07 d

theorem Sys2Proof.Laws.TableRow.frameDigit8 (d : Sys2Proof.Byte) : Sys2Proof.Laws.TableRow.Statement (.frameDigit8 d) :=
  Sys2Proof.frameWord_masked 0x08 d

theorem Sys2Proof.Laws.TableRow.frameDecode (d : Sys2Proof.Byte) : Sys2Proof.Laws.TableRow.Statement (.frameDecode d) :=
  Sys2Proof.frameWord_masked 0x09 d

theorem Sys2Proof.Laws.TableRow.frameIntensity (d : Sys2Proof.Byte) : Sys2Proof.Laws.TableRow.Statement (.frameIntensity d) :=
  Sys2Proof.frameWord_masked 0x0A d

theorem Sys2Proof.Laws.TableRow.frameScanLimit (d : Sys2Proof.Byte) : Sys2Proof.Laws.TableRow.Statement (.frameScanLimit d) :=
  Sys2Proof.frameWord_masked 0x0B d

theorem Sys2Proof.Laws.TableRow.frameShutdown (d : Sys2Proof.Byte) : Sys2Proof.Laws.TableRow.Statement (.frameShutdown d) :=
  Sys2Proof.frameWord_masked 0x0C d

theorem Sys2Proof.Laws.TableRow.frameDisplayTest (d : Sys2Proof.Byte) : Sys2Proof.Laws.TableRow.Statement (.frameDisplayTest d) :=
  Sys2Proof.frameWord_masked 0x0F d
end

