-- ==== Sys2Proof/Laws/State.lean ====
section
/-! SUPPORT. What each shared operation makes of each field of the state, true by `rfl`, so that no later proof unfolds a
record update. -/

namespace Sys2Proof.Machine

@[simp] theorem State.moveTo_cfg (s : State) (q : Seq) (ins : List Input) : (s.moveTo q ins).cfg = s.cfg := rfl
@[simp] theorem State.moveTo_inputs (s : State) (q : Seq) (ins : List Input) : (s.moveTo q ins).inputs = ins := rfl
@[simp] theorem State.moveTo_seq (s : State) (q : Seq) (ins : List Input) : (s.moveTo q ins).seq = q := rfl
@[simp] theorem State.moveTo_lines (s : State) (q : Seq) (ins : List Input) : (s.moveTo q ins).lines = s.lines := rfl
@[simp] theorem State.moveTo_rxShift (s : State) (q : Seq) (ins : List Input) : (s.moveTo q ins).rxShift = s.rxShift := rfl
@[simp] theorem State.moveTo_ds (s : State) (q : Seq) (ins : List Input) : (s.moveTo q ins).ds = s.ds := rfl
@[simp] theorem State.moveTo_callTrace (s : State) (q : Seq) (ins : List Input) :
    (s.moveTo q ins).callTrace = s.callTrace := rfl
@[simp] theorem State.moveTo_waveform (s : State) (q : Seq) (ins : List Input) :
    (s.moveTo q ins).waveform = s.waveform := rfl
@[simp] theorem State.moveTo_frameTrace (s : State) (q : Seq) (ins : List Input) :
    (s.moveTo q ins).frameTrace = s.frameTrace := rfl
@[simp] theorem State.moveTo_written (s : State) (q : Seq) (ins : List Input) : (s.moveTo q ins).written = s.written := rfl
@[simp] theorem State.moveTo_draws (s : State) (q : Seq) (ins : List Input) : (s.moveTo q ins).draws = s.draws := rfl
@[simp] theorem State.moveTo_moveTo (s : State) (q q' : Seq) (ins ins' : List Input) :
    (s.moveTo q ins).moveTo q' ins' = s.moveTo q' ins' := rfl
@[simp] theorem State.moveTo_self (s : State) : s.moveTo s.seq s.inputs = s := rfl

@[simp] theorem State.withWritten_cfg (s : State) (w : Memory) : (s.withWritten w).cfg = s.cfg := rfl
@[simp] theorem State.withWritten_inputs (s : State) (w : Memory) : (s.withWritten w).inputs = s.inputs := rfl
@[simp] theorem State.withWritten_seq (s : State) (w : Memory) : (s.withWritten w).seq = s.seq := rfl
@[simp] theorem State.withWritten_lines (s : State) (w : Memory) : (s.withWritten w).lines = s.lines := rfl
@[simp] theorem State.withWritten_rxShift (s : State) (w : Memory) : (s.withWritten w).rxShift = s.rxShift := rfl
@[simp] theorem State.withWritten_ds (s : State) (w : Memory) : (s.withWritten w).ds = s.ds := rfl
@[simp] theorem State.withWritten_callTrace (s : State) (w : Memory) : (s.withWritten w).callTrace = s.callTrace := rfl
@[simp] theorem State.withWritten_waveform (s : State) (w : Memory) : (s.withWritten w).waveform = s.waveform := rfl
@[simp] theorem State.withWritten_frameTrace (s : State) (w : Memory) : (s.withWritten w).frameTrace = s.frameTrace := rfl
@[simp] theorem State.withWritten_written (s : State) (w : Memory) : (s.withWritten w).written = w := rfl
@[simp] theorem State.withWritten_draws (s : State) (w : Memory) : (s.withWritten w).draws = s.draws := rfl
@[simp] theorem State.withWritten_withWritten (s : State) (w w' : Memory) :
    (s.withWritten w).withWritten w' = s.withWritten w' := rfl
@[simp] theorem State.withWritten_self (s : State) : s.withWritten s.written = s := rfl
theorem State.withWritten_moveTo (s : State) (w : Memory) (q : Seq) (ins : List Input) :
    (s.withWritten w).moveTo q ins = (s.moveTo q ins).withWritten w := rfl

@[simp] theorem State.setLine_cfg (s : State) (e : LineEvent) : (s.setLine e).cfg = s.cfg := rfl
@[simp] theorem State.setLine_inputs (s : State) (e : LineEvent) : (s.setLine e).inputs = s.inputs := rfl
@[simp] theorem State.setLine_seq (s : State) (e : LineEvent) : (s.setLine e).seq = s.seq := rfl
@[simp] theorem State.setLine_lines (s : State) (e : LineEvent) : (s.setLine e).lines = s.lines.set e.id e.level := rfl
@[simp] theorem State.setLine_rxShift (s : State) (e : LineEvent) : (s.setLine e).rxShift = s.rxShift := rfl
@[simp] theorem State.setLine_ds (s : State) (e : LineEvent) : (s.setLine e).ds = s.ds := rfl
@[simp] theorem State.setLine_callTrace (s : State) (e : LineEvent) : (s.setLine e).callTrace = s.callTrace := rfl
@[simp] theorem State.setLine_waveform (s : State) (e : LineEvent) :
    (s.setLine e).waveform = s.waveform ++ triplesFrom s.lines [e] := rfl
@[simp] theorem State.setLine_frameTrace (s : State) (e : LineEvent) : (s.setLine e).frameTrace = s.frameTrace := rfl
@[simp] theorem State.setLine_written (s : State) (e : LineEvent) : (s.setLine e).written = s.written := rfl
@[simp] theorem State.setLine_draws (s : State) (e : LineEvent) : (s.setLine e).draws = s.draws := rfl

@[simp] theorem recordFrame_cfg (a d : Byte) (s : State) : (recordFrame a d s).cfg = s.cfg := rfl
@[simp] theorem recordFrame_inputs (a d : Byte) (s : State) : (recordFrame a d s).inputs = s.inputs := rfl
@[simp] theorem recordFrame_seq (a d : Byte) (s : State) : (recordFrame a d s).seq = s.seq := rfl
@[simp] theorem recordFrame_lines (a d : Byte) (s : State) : (recordFrame a d s).lines = s.lines := rfl
@[simp] theorem recordFrame_rxShift (a d : Byte) (s : State) : (recordFrame a d s).rxShift = s.rxShift := rfl
@[simp] theorem recordFrame_ds (a d : Byte) (s : State) : (recordFrame a d s).ds = s.ds := rfl
@[simp] theorem recordFrame_callTrace (a d : Byte) (s : State) : (recordFrame a d s).callTrace = s.callTrace := rfl
@[simp] theorem recordFrame_waveform (a d : Byte) (s : State) : (recordFrame a d s).waveform = s.waveform := rfl
@[simp] theorem recordFrame_frameTrace (a d : Byte) (s : State) :
    (recordFrame a d s).frameTrace = s.frameTrace ++ [frameWord (a, d)] := rfl
@[simp] theorem recordFrame_written (a d : Byte) (s : State) : (recordFrame a d s).written = s.written := rfl
@[simp] theorem recordFrame_draws (a d : Byte) (s : State) : (recordFrame a d s).draws = s.draws := rfl

@[simp] theorem latchInto_cfg (r : DevReg) (d : Byte) (s : State) : (latchInto r d s).cfg = s.cfg := rfl
@[simp] theorem latchInto_inputs (r : DevReg) (d : Byte) (s : State) : (latchInto r d s).inputs = s.inputs := rfl
@[simp] theorem latchInto_seq (r : DevReg) (d : Byte) (s : State) : (latchInto r d s).seq = s.seq := rfl
@[simp] theorem latchInto_lines (r : DevReg) (d : Byte) (s : State) : (latchInto r d s).lines = s.lines := rfl
@[simp] theorem latchInto_rxShift (r : DevReg) (d : Byte) (s : State) : (latchInto r d s).rxShift = s.rxShift := rfl
@[simp] theorem latchInto_ds (r : DevReg) (d : Byte) (s : State) :
    (latchInto r d s).ds = s.ds.write (s.cfg.regMap.addr r).toNat d := rfl
@[simp] theorem latchInto_callTrace (r : DevReg) (d : Byte) (s : State) : (latchInto r d s).callTrace = s.callTrace := rfl
@[simp] theorem latchInto_waveform (r : DevReg) (d : Byte) (s : State) : (latchInto r d s).waveform = s.waveform := rfl
@[simp] theorem latchInto_frameTrace (r : DevReg) (d : Byte) (s : State) :
    (latchInto r d s).frameTrace = s.frameTrace ++ [frameWord (s.cfg.regMap.addr r, d)] := rfl
@[simp] theorem latchInto_written (r : DevReg) (d : Byte) (s : State) : (latchInto r d s).written = s.written := rfl
@[simp] theorem latchInto_draws (r : DevReg) (d : Byte) (s : State) : (latchInto r d s).draws = s.draws := rfl

@[simp] theorem emitLine_cfg (e : LineEvent) (s : State) : (emitLine e s).cfg = s.cfg := rfl
@[simp] theorem emitLine_inputs (e : LineEvent) (s : State) : (emitLine e s).inputs = s.inputs := rfl
@[simp] theorem emitLine_seq (e : LineEvent) (s : State) : (emitLine e s).seq = s.seq := rfl
@[simp] theorem emitLine_lines (e : LineEvent) (s : State) : (emitLine e s).lines = s.lines.set e.id e.level := rfl
@[simp] theorem emitLine_rxShift (e : LineEvent) (s : State) :
    (emitLine e s).rxShift = if e.id = .clock ∧ e.rises s.lines = true then shiftIn s.rxShift s.lines.data else s.rxShift := rfl
@[simp] theorem emitLine_ds (e : LineEvent) (s : State) : (emitLine e s).ds = s.ds := rfl
@[simp] theorem emitLine_callTrace (e : LineEvent) (s : State) : (emitLine e s).callTrace = s.callTrace ++ [.line e] := rfl
@[simp] theorem emitLine_waveform (e : LineEvent) (s : State) :
    (emitLine e s).waveform = s.waveform ++ triplesFrom s.lines [e] := rfl
@[simp] theorem emitLine_frameTrace (e : LineEvent) (s : State) : (emitLine e s).frameTrace = s.frameTrace := rfl
@[simp] theorem emitLine_written (e : LineEvent) (s : State) : (emitLine e s).written = s.written := rfl
@[simp] theorem emitLine_draws (e : LineEvent) (s : State) : (emitLine e s).draws = s.draws := rfl

@[simp] theorem emitResult_cfg (v : Byte) (s : State) : (emitResult v s).cfg = s.cfg := rfl
@[simp] theorem emitResult_inputs (v : Byte) (s : State) : (emitResult v s).inputs = s.inputs := rfl
@[simp] theorem emitResult_seq (v : Byte) (s : State) : (emitResult v s).seq = s.seq := rfl
@[simp] theorem emitResult_lines (v : Byte) (s : State) : (emitResult v s).lines = s.lines := rfl
@[simp] theorem emitResult_rxShift (v : Byte) (s : State) : (emitResult v s).rxShift = s.rxShift := rfl
@[simp] theorem emitResult_ds (v : Byte) (s : State) : (emitResult v s).ds = s.ds := rfl
@[simp] theorem emitResult_callTrace (v : Byte) (s : State) : (emitResult v s).callTrace = s.callTrace ++ [.result v] := rfl
@[simp] theorem emitResult_waveform (v : Byte) (s : State) : (emitResult v s).waveform = s.waveform := rfl
@[simp] theorem emitResult_frameTrace (v : Byte) (s : State) : (emitResult v s).frameTrace = s.frameTrace := rfl
@[simp] theorem emitResult_written (v : Byte) (s : State) : (emitResult v s).written = s.written := rfl
@[simp] theorem emitResult_draws (v : Byte) (s : State) : (emitResult v s).draws = s.draws := rfl

@[simp] theorem State.drawn_cfg (s : State) : (s.drawn).cfg = s.cfg := rfl
@[simp] theorem State.drawn_inputs (s : State) : (s.drawn).inputs = s.inputs := rfl
@[simp] theorem State.drawn_seq (s : State) : (s.drawn).seq = s.seq := rfl
@[simp] theorem State.drawn_lines (s : State) : (s.drawn).lines = s.lines := rfl
@[simp] theorem State.drawn_rxShift (s : State) : (s.drawn).rxShift = s.rxShift := rfl
@[simp] theorem State.drawn_ds (s : State) : (s.drawn).ds = s.ds := rfl
@[simp] theorem State.drawn_callTrace (s : State) : (s.drawn).callTrace = s.callTrace := rfl
@[simp] theorem State.drawn_waveform (s : State) : (s.drawn).waveform = s.waveform := rfl
@[simp] theorem State.drawn_frameTrace (s : State) : (s.drawn).frameTrace = s.frameTrace := rfl
@[simp] theorem State.drawn_written (s : State) : (s.drawn).written = s.written := rfl
@[simp] theorem State.drawn_draws (s : State) : (s.drawn).draws = s.draws + 1 := rfl

@[simp] theorem devicePowerUp_cfg (s : State) : (devicePowerUp s).cfg = s.cfg := rfl
@[simp] theorem devicePowerUp_inputs (s : State) : (devicePowerUp s).inputs = s.inputs := rfl
@[simp] theorem devicePowerUp_seq (s : State) : (devicePowerUp s).seq = s.seq := rfl
@[simp] theorem devicePowerUp_lines (s : State) : (devicePowerUp s).lines = s.lines := rfl
@[simp] theorem devicePowerUp_rxShift (s : State) : (devicePowerUp s).rxShift = Config.freePowerUp s.draws := rfl
@[simp] theorem devicePowerUp_ds (s : State) : (devicePowerUp s).ds = [] := rfl
@[simp] theorem devicePowerUp_callTrace (s : State) : (devicePowerUp s).callTrace = s.callTrace := rfl
@[simp] theorem devicePowerUp_waveform (s : State) : (devicePowerUp s).waveform = s.waveform := rfl
@[simp] theorem devicePowerUp_frameTrace (s : State) : (devicePowerUp s).frameTrace = s.frameTrace := rfl
@[simp] theorem devicePowerUp_written (s : State) : (devicePowerUp s).written = [] := rfl
@[simp] theorem devicePowerUp_draws (s : State) : (devicePowerUp s).draws = s.draws + 1 := rfl

@[simp] theorem State.powerUp_cfg (c : Config) (rx : BitVec 16) : (State.powerUp c rx).cfg = c := rfl
@[simp] theorem State.powerUp_inputs (c : Config) (rx : BitVec 16) : (State.powerUp c rx).inputs = [] := rfl
@[simp] theorem State.powerUp_seq (c : Config) (rx : BitVec 16) : (State.powerUp c rx).seq = .idle := rfl
@[simp] theorem State.powerUp_lines (c : Config) (rx : BitVec 16) : (State.powerUp c rx).lines = c.resetLines := rfl
@[simp] theorem State.powerUp_rxShift (c : Config) (rx : BitVec 16) : (State.powerUp c rx).rxShift = rx := rfl
@[simp] theorem State.powerUp_ds (c : Config) (rx : BitVec 16) : (State.powerUp c rx).ds = [] := rfl
@[simp] theorem State.powerUp_callTrace (c : Config) (rx : BitVec 16) : (State.powerUp c rx).callTrace = [] := rfl
@[simp] theorem State.powerUp_waveform (c : Config) (rx : BitVec 16) : (State.powerUp c rx).waveform = [c.resetLines] := rfl
@[simp] theorem State.powerUp_frameTrace (c : Config) (rx : BitVec 16) : (State.powerUp c rx).frameTrace = [] := rfl
@[simp] theorem State.powerUp_written (c : Config) (rx : BitVec 16) : (State.powerUp c rx).written = [] := rfl
@[simp] theorem State.powerUp_draws (c : Config) (rx : BitVec 16) : (State.powerUp c rx).draws = 0 := rfl

/-- Accepting a command from IDLE moves the sequencer to the command's first event and changes nothing else (R24). -/
theorem accept_idle (cw : CmdWord) (s : State) (h : s.seq = .idle) : accept cw s = s.moveTo (.run cw 0 0) s.inputs := by
  simp [accept, h]

/-- A command presented while another runs changes nothing (R26). -/
theorem accept_busy (cw cw' : CmdWord) (f k : Nat) (s : State) (h : s.seq = .run cw' f k) : accept cw s = s := by
  simp [accept, h]

/-- The two things a latch can be: a write of a recognised register, or a record only (R34). -/
theorem latch_cases (s : State) :
    (∃ r, s.cfg.regMap.find (frameAddr s.rxShift) = some r ∧ latch s = latchInto r (frameData s.rxShift) s) ∨
      (s.cfg.regMap.find (frameAddr s.rxShift) = none ∧
        latch s = recordFrame (frameAddr s.rxShift) (frameData s.rxShift) s) := by
  unfold latch
  cases h : s.cfg.regMap.find (frameAddr s.rxShift) with
  | some r => exact .inl ⟨r, rfl, rfl⟩
  | none => exact .inr ⟨rfl, rfl⟩

@[simp] theorem latch_cfg (s : State) : (latch s).cfg = s.cfg := by
  obtain ⟨r, -, h⟩ | ⟨-, h⟩ := latch_cases s <;> simp [h]
@[simp] theorem latch_inputs (s : State) : (latch s).inputs = s.inputs := by
  obtain ⟨r, -, h⟩ | ⟨-, h⟩ := latch_cases s <;> simp [h]
@[simp] theorem latch_seq (s : State) : (latch s).seq = s.seq := by
  obtain ⟨r, -, h⟩ | ⟨-, h⟩ := latch_cases s <;> simp [h]
@[simp] theorem latch_lines (s : State) : (latch s).lines = s.lines := by
  obtain ⟨r, -, h⟩ | ⟨-, h⟩ := latch_cases s <;> simp [h]
@[simp] theorem latch_rxShift (s : State) : (latch s).rxShift = s.rxShift := by
  obtain ⟨r, -, h⟩ | ⟨-, h⟩ := latch_cases s <;> simp [h]
@[simp] theorem latch_callTrace (s : State) : (latch s).callTrace = s.callTrace := by
  obtain ⟨r, -, h⟩ | ⟨-, h⟩ := latch_cases s <;> simp [h]
@[simp] theorem latch_waveform (s : State) : (latch s).waveform = s.waveform := by
  obtain ⟨r, -, h⟩ | ⟨-, h⟩ := latch_cases s <;> simp [h]
@[simp] theorem latch_written (s : State) : (latch s).written = s.written := by
  obtain ⟨r, -, h⟩ | ⟨-, h⟩ := latch_cases s <;> simp [h]
@[simp] theorem latch_draws (s : State) : (latch s).draws = s.draws := by
  obtain ⟨r, -, h⟩ | ⟨-, h⟩ := latch_cases s <;> simp [h]

/-- The triples of one event and of those after it (R111). -/
theorem triplesFrom_cons (l : Lines) (e : LineEvent) (es : List LineEvent) :
    triplesFrom l (e :: es) = triplesFrom l [e] ++ triplesFrom (l.set e.id e.level) es := by
  by_cases h : l.get e.id = e.level
  · have hl : l.set e.id e.level = l := by
      rw [← h]
      cases e.id <;> rfl
    simp [triplesFrom, h, hl]
  · simp [triplesFrom, h]

/-- The triples of a list of events and of those after it. -/
theorem triplesFrom_append (l : Lines) (es es' : List LineEvent) :
    triplesFrom l (es ++ es') = triplesFrom l es ++ triplesFrom (linesAfter l es) es' := by
  induction es generalizing l with
  | nil => rfl
  | cons e es ih =>
    rw [List.cons_append, triplesFrom_cons, ih, triplesFrom_cons l e es, List.append_assoc]
    rfl

@[simp] theorem Lines.get_set_same (l : Lines) (id : LineId) (v : Bool) : (l.set id v).get id = v := by
  cases id <;> rfl

theorem Lines.get_set_other (l : Lines) (id id' : LineId) (v : Bool) (h : id' ≠ id) :
    (l.set id v).get id' = l.get id' := by
  cases id <;> cases id' <;> first | rfl | exact absurd rfl h

end Sys2Proof.Machine
end

