-- ==== Sys2Proof/Laws/Reset.lean ====
section
/-! SUPPORT. What a reset of the block can do, said once: whatever a latch, a line change and a new sequencer position keep,
a reset keeps; and the fields it fixes (70_reset_and_hazards.md R160, R166). -/

namespace Sys2Proof.Machine

/-- What a latch and a change of the lines and of the shift register keep, one line's change at reset keeps. -/
theorem resetLine_keeps (P : State → Prop) (hl : ∀ s, P s → P (latch s))
    (hx : ∀ s e r, P s → P { State.setLine s e with rxShift := r }) (s : State) (id : LineId) (h : P s) :
    P (resetLine s id) := by
  have hs (id : LineId) : P (s.setLine ⟨id, s.cfg.resetLines.get id⟩) := hx s _ s.rxShift h
  unfold resetLine
  dsimp only
  split
  · cases id
    · exact hs .data
    · exact hx s _ _ h
    · exact hl _ (hs .load)
  · exact hs id

theorem foldl_resetLine_keeps (P : State → Prop) (hl : ∀ s, P s → P (latch s))
    (hx : ∀ s e r, P s → P { State.setLine s e with rxShift := r }) (ids : List LineId) (s : State) (h : P s) :
    P (ids.foldl resetLine s) := by
  induction ids generalizing s with
  | nil => exact h
  | cons id ids ih => exact ih _ (resetLine_keeps P hl hx s id h)

/-- What a latch, a change of the lines and of the shift register, a new position and a draw keep, a reset keeps. -/
theorem blockReset_keeps (P : State → Prop) (hl : ∀ s, P s → P (latch s))
    (hx : ∀ s e r, P s → P { State.setLine s e with rxShift := r }) (hq : ∀ s, P s → P (s.moveTo .idle s.inputs))
    (hd : ∀ s, P s → P s.drawn) (s : State) (h : P s) : P (blockReset s) := by
  exact hd _ (foldl_resetLine_keeps P hl hx _ _ (hq _ h))

@[simp] theorem resetLine_cfg (s : State) (id : LineId) : (resetLine s id).cfg = s.cfg :=
  resetLine_keeps (fun t => t.cfg = s.cfg) (by simp) (by simp) s id rfl

@[simp] theorem resetLine_lines (s : State) (id : LineId) :
    (resetLine s id).lines = s.lines.set id (s.cfg.resetLines.get id) := by
  unfold resetLine
  dsimp only
  split
  · cases id <;> simp
  · simp

@[simp] theorem blockReset_cfg (s : State) : (blockReset s).cfg = s.cfg :=
  blockReset_keeps (fun t => t.cfg = s.cfg) (by simp) (by simp) (by simp) (by simp) s rfl

@[simp] theorem blockReset_inputs (s : State) : (blockReset s).inputs = s.inputs :=
  blockReset_keeps (fun t => t.inputs = s.inputs) (by simp) (by simp) (by simp) (by simp) s rfl

@[simp] theorem blockReset_callTrace (s : State) : (blockReset s).callTrace = s.callTrace :=
  blockReset_keeps (fun t => t.callTrace = s.callTrace) (by simp) (by simp) (by simp) (by simp) s rfl

@[simp] theorem blockReset_written (s : State) : (blockReset s).written = s.written :=
  blockReset_keeps (fun t => t.written = s.written) (by simp) (by simp) (by simp) (by simp) s rfl

@[simp] theorem blockReset_seq (s : State) : (blockReset s).seq = .idle := by
  unfold blockReset
  simpa using foldl_resetLine_keeps (fun t => t.seq = .idle) (by simp) (by simp) _ (s.moveTo .idle s.inputs) rfl

/-- Every order of the three lines changes every line. -/
theorem mem_lineOrder (n : Fin 6) (id : LineId) : id ∈ lineOrder n := by
  revert n
  cases id <;> decide

/-- Two triples of levels that agree line by line are the same. -/
theorem Lines.eq_of_get {l l' : Lines} (h : ∀ id, l.get id = l'.get id) : l = l' := by
  have h1 := h .data
  have h2 := h .clock
  have h3 := h .load
  cases l
  cases l'
  simp_all [Lines.get]

theorem foldl_resetLine_get (ids : List LineId) (s : State) (id : LineId) :
    (ids.foldl resetLine s).lines.get id = if id ∈ ids then s.cfg.resetLines.get id else s.lines.get id := by
  induction ids generalizing s with
  | nil => simp
  | cons a ids ih =>
    rw [List.foldl_cons, ih, resetLine_cfg, resetLine_lines]
    by_cases h : id ∈ ids
    · simp [h]
    · by_cases h' : id = a
      · subst h'
        simp [h]
      · simp [h, h', Lines.get_set_other]

@[simp] theorem blockReset_lines (s : State) : (blockReset s).lines = s.cfg.resetLines := by
  refine Lines.eq_of_get fun id => ?_
  rw [blockReset, State.drawn_lines, foldl_resetLine_get]
  simp [mem_lineOrder]

/-- One line's change at reset adds its triple, if it changes the level. -/
@[simp] theorem resetLine_waveform (s : State) (id : LineId) :
    (resetLine s id).waveform = s.waveform ++ triplesFrom s.lines [⟨id, s.cfg.resetLines.get id⟩] := by
  unfold resetLine
  dsimp only
  split
  · cases id <;> simp
  · simp

/-- Each order is one of the three lines. -/
theorem lineOrder_perm (n : Fin 6) : (lineOrder n).Perm [.data, .clock, .load] := by
  revert n
  decide

theorem foldl_resetLine_waveform (ids : List LineId) (s : State) :
    (ids.foldl resetLine s).waveform =
      s.waveform ++ triplesFrom s.lines (ids.map fun id => ⟨id, s.cfg.resetLines.get id⟩) := by
  induction ids generalizing s with
  | nil => simp [triplesFrom]
  | cons id ids ih =>
    rw [List.foldl_cons, ih, resetLine_waveform, resetLine_lines, resetLine_cfg, List.append_assoc, List.map_cons]
    congr 1
    exact (triplesFrom_cons _ _ _).symm

/-- A reset adds to the waveform the changes of the three lines, each once, in some order (R166, 00_scope.md R9). -/
theorem blockReset_waveform (s : State) :
    ∃ ids : List LineId, ids.Perm [.data, .clock, .load] ∧
      (blockReset s).waveform = s.waveform ++ triplesFrom s.lines (ids.map fun id => ⟨id, s.cfg.resetLines.get id⟩) :=
  ⟨_, lineOrder_perm _, foldl_resetLine_waveform _ (s.moveTo .idle s.inputs)⟩

end Sys2Proof.Machine
end

