-- ==== Sys2Proof/Laws/Step.lean ====
section
/-! SUPPORT. What one step can do, said once: a step of the outside, a presented command, a refusal, one line event. -/

namespace Sys2Proof.Machine

/-- One line event with everything the receiver does at it (10_state.md R33, R34). -/
def afterLine (s : State) (e : LineEvent) : State :=
  if loadRises e s then latch (emitLine e s) else emitLine e s

@[simp] theorem afterLine_cfg (s : State) (e : LineEvent) : (afterLine s e).cfg = s.cfg := by
  unfold afterLine
  split <;> simp

@[simp] theorem afterLine_inputs (s : State) (e : LineEvent) : (afterLine s e).inputs = s.inputs := by
  unfold afterLine
  split <;> simp

@[simp] theorem afterLine_seq (s : State) (e : LineEvent) : (afterLine s e).seq = s.seq := by
  unfold afterLine
  split <;> simp

@[simp] theorem afterLine_lines (s : State) (e : LineEvent) : (afterLine s e).lines = s.lines.set e.id e.level := by
  unfold afterLine
  split <;> simp

@[simp] theorem afterLine_callTrace (s : State) (e : LineEvent) :
    (afterLine s e).callTrace = s.callTrace ++ [.line e] := by
  unfold afterLine
  split <;> simp

@[simp] theorem afterLine_waveform (s : State) (e : LineEvent) :
    (afterLine s e).waveform = s.waveform ++ triplesFrom s.lines [e] := by
  unfold afterLine
  split <;> simp

@[simp] theorem afterLine_written (s : State) (e : LineEvent) : (afterLine s e).written = s.written := by
  unfold afterLine
  split <;> simp

@[simp] theorem afterLine_draws (s : State) (e : LineEvent) : (afterLine s e).draws = s.draws := by
  unfold afterLine
  split <;> simp

@[simp] theorem afterLine_rxShift (s : State) (e : LineEvent) :
    (afterLine s e).rxShift =
      if e.id = .clock ∧ e.rises s.lines = true then shiftIn s.rxShift s.lines.data else s.rxShift := by
  unfold afterLine
  split <;> simp

/-- Executing the row of a register is the latch into it (R34, R71). -/
theorem exec_frameOf (r : DevReg) (d : Byte) (s : State) : exec (Instr.frameOf r d) s = .next (latchInto r d s) := by
  cases r <;> rfl

/-- Executing the instruction in the shift register is the receiver's latch (R34). -/
theorem exec_latched {s : State} {i : Instr} (h : decodeFrame s.cfg.regMap s.rxShift = .ok i) :
    exec i s = .next (latch s) := by
  unfold decodeFrame at h
  unfold latch
  cases hf : s.cfg.regMap.find (frameAddr s.rxShift) with
  | some r =>
    simp only [hf, Except.ok.injEq] at h
    subst h
    exact exec_frameOf r _ s
  | none =>
    simp only [hf] at h
    split at h
    · rename_i ha
      cases h
      simp [exec, execFrameNoop, ha]
    · cases h

/-- A step in which the block is at a position of a command emits that position's event (R24). -/
theorem step_event {s : State} {cw : CmdWord} {f k n : Nat} {e : LineEvent} (hb : blockMoves s.inputs = true)
    (hs : s.seq = .run cw f k) (he : eventAt s.cfg cw f k = some (e, n)) :
    step s =
      .next (afterLine ((s.moveTo (nextSeq cw n f k) (tick s.inputs)).withWritten (commit s.cfg cw f k s.written)) e) := by
  have hm : nextMove s =
      lineMove e ((s.moveTo (nextSeq cw n f k) (tick s.inputs)).withWritten (commit s.cfg cw f k s.written)) := by
    simp only [nextMove, hb, if_true, hs, runMove, he]
  generalize (s.moveTo (nextSeq cw n f k) (tick s.inputs)).withWritten (commit s.cfg cw f k s.written) = t at hm ⊢
  unfold step
  rw [hm]
  unfold lineMove afterLine latchMove
  by_cases hl : loadRises e t = true
  · simp only [hl, if_true]
    cases hd : decodeFrame (emitLine e t).cfg.regMap (emitLine e t).rxShift with
    | ok i => exact exec_latched hd
    | error x => rfl
  · simp only [hl, if_false, Bool.false_eq_true]

/-- A step with a position that no command has is a fault (R25). -/
theorem step_stuck {s : State} {cw : CmdWord} {f k : Nat} (hb : blockMoves s.inputs = true)
    (hs : s.seq = .run cw f k) (he : eventAt s.cfg cw f k = none) : step s = .fault .seqOutOfRange := by
  unfold step nextMove
  rw [if_pos hb]
  simp only [hs, runMove, he]

/-- What is known of a position that has an event (R23, R102). -/
theorem eventAt_inv {cfg : Config} {cw : CmdWord} {f k n : Nat} {e : LineEvent} (h : eventAt cfg cw f k = some (e, n)) :
    ∃ i fr, decodeCommand cw = .ok i ∧ (commandFrames cfg i)[f]? = some fr ∧ frameEvent (frameWord fr) k = some e ∧
      n = (commandFrames cfg i).length ∧ frameAt cfg cw f = some fr ∧ currentFrame cfg cw f = some (frameWord fr) := by
  unfold eventAt at h
  cases hd : decodeCommand cw with
  | error x => simp [hd] at h
  | ok i =>
    simp only [hd] at h
    cases hf : (commandFrames cfg i)[f]? with
    | none => simp [hf] at h
    | some fr =>
      simp only [hf, Option.map_eq_some_iff] at h
      obtain ⟨e', he, h⟩ := h
      cases h
      exact ⟨i, fr, rfl, hf, he, rfl, by simp [frameAt, hd, hf], by simp [currentFrame, frameAt, hd, hf]⟩

/-- Only event 50 commits a write (20_memory.md R53). -/
theorem commit_before (cfg : Config) (cw : CmdWord) (f : Nat) {k : Nat} (w : Memory) (h : k ≠ 50) :
    commit cfg cw f k w = w := by
  simp [commit, h]

/-- Event 50 commits its frame's write (20_memory.md R53). -/
theorem commit_last {cfg : Config} {cw : CmdWord} {f : Nat} {fr : Frame} (w : Memory) (h : frameAt cfg cw f = some fr) :
    commit cfg cw f 50 w = w.write fr.1.toNat fr.2 := by
  simp [commit, h]

/-- What a commit keeps: whatever a write keeps. -/
theorem commit_keeps (P : Memory → Prop) (hw : ∀ w a v, P w → P (Memory.write w a v)) (cfg : Config) (cw : CmdWord)
    (f k : Nat) (w : Memory) (h : P w) : P (commit cfg cw f k w) := by
  unfold commit
  split
  · split
    · exact hw _ _ _ h
    · exact h
  · exact h

/-- What the record of a reset keeps: whatever a write keeps. -/
theorem resetCommit_keeps (P : Memory → Prop) (hw : ∀ w a v, P w → P (Memory.write w a v)) (s : State) (h : P s.written) :
    P (resetCommit s) := by
  unfold resetCommit
  split
  · exact h
  · split
    · exact commit_keeps P hw _ _ _ _ _ h
    · exact h

/-- No index past 50 has an event (R102). -/
theorem frameEvent_index {F : FrameWord} {k : Nat} {e : LineEvent} (h : frameEvent F k = some e) : k ≤ 50 := by
  unfold frameEvent at h
  repeat' split at h
  all_goals first | omega | cases h

/-- A step that has a next state at a position emitted the position's event (R24). -/
theorem step_next_event {s t : State} {cw : CmdWord} {f k : Nat} (hb : blockMoves s.inputs = true)
    (hs : s.seq = .run cw f k) (h : step s = .next t) :
    ∃ e n, eventAt s.cfg cw f k = some (e, n) ∧
      t = afterLine ((s.moveTo (nextSeq cw n f k) (tick s.inputs)).withWritten (commit s.cfg cw f k s.written)) e := by
  cases he : eventAt s.cfg cw f k with
  | none =>
    rw [step_stuck hb hs he] at h
    cases h
  | some x =>
    rw [step_event hb hs he] at h
    cases h
    exact ⟨x.1, x.2, rfl, rfl⟩

/-- The outside's steps are a reset of the block and a power-up of the device. -/
theorem outsideMove_cases {s : State} (hb : blockMoves s.inputs = false) :
    (∃ rest, s.inputs = .reset :: rest ∧
        outsideMove s = blockReset ((s.moveTo s.seq rest).withWritten (resetCommit s))) ∨
      ∃ rest, s.inputs = .devicePowerUp :: rest ∧ outsideMove s = devicePowerUp (s.moveTo s.seq rest) := by
  rcases hi : s.inputs with _ | ⟨_ | _ | _ | _, rest⟩ <;> simp [hi, blockMoves] at hb
  · exact .inl ⟨rest, rfl, by simp [outsideMove, hi]⟩
  · exact .inr ⟨rest, rfl, by simp [outsideMove, hi]⟩

/-- A step that the outside takes. -/
theorem step_outside {s : State} (hb : blockMoves s.inputs = false) : step s = .next (outsideMove s) := by
  unfold step nextMove
  simp [hb]

/-- The instructions of format CMD24 (R60). -/
def isCommand (i : Instr) : Prop := ∃ cw, decodeCommand cw = .ok i

/-- What executing a command can do (R24): the acceptance of its word, or LOOKUP's result event; nothing when the block is
busy. -/
theorem exec_command_cases {cw : CmdWord} {i : Instr} (h : decodeCommand cw = .ok i) (s : State) :
    (∃ cw', (decodeCommand cw' = .ok i ∧ 0 < (commandFrames s.cfg i).length) ∧ exec i s = .next (accept cw' s)) ∨
      (∃ c, i = .lookup c ∧ exec i s = execLookup c s) := by
  have key := decodeCommand_cmdWord
  cases i with
  | lookup c => exact .inr ⟨c, rfl, rfl⟩
  | wrreg a d => exact .inl ⟨_, ⟨key 0x2 false a d, by simp [commandFrames, framesWrreg]⟩, rfl⟩
  | init => exact .inl ⟨_, ⟨key 0x3 false 0 0, by simp [commandFrames, framesInit]⟩, rfl⟩
  | setbrt b => exact .inl ⟨_, ⟨key 0x4 false 0 b, by simp [commandFrames, framesSetbrt]⟩, rfl⟩
  | clrall => exact .inl ⟨_, ⟨key 0x5 false 0 0, by simp [commandFrames, framesClrall, DevReg.digits]⟩, rfl⟩
  | dispch p c dp =>
    refine .inl ⟨_, ⟨key 0x6 dp p c, by simp [commandFrames, framesDispch]⟩, rfl⟩
  | auxdot f => exact .inl ⟨_, ⟨key 0x7 false 0 f, by simp [commandFrames, framesAuxdot]⟩, rfl⟩
  | shdnon => exact .inl ⟨_, ⟨key 0x8 false 0 0, by simp [commandFrames, framesShdnon]⟩, rfl⟩
  | shdnoff => exact .inl ⟨_, ⟨key 0x9 false 0 0, by simp [commandFrames, framesShdnoff]⟩, rfl⟩
  | teston => exact .inl ⟨_, ⟨key 0xA false 0 0, by simp [commandFrames, framesTeston]⟩, rfl⟩
  | testoff => exact .inl ⟨_, ⟨key 0xB false 0 0, by simp [commandFrames, framesTestoff]⟩, rfl⟩
  | _ =>
    exfalso
    unfold decodeCommand CmdFields.decode at h
    split at h
    all_goals first
      | exact nomatch ((CmdFields.unused_eq_ok _ _ _ _ _ _).mp h).2.2.2.2
      | cases h

/-- What a step of an idle block can do: wait, emit a result, or accept a command that has frames (R24). -/
theorem step_next_idle {s t : State} (hb : blockMoves s.inputs = true) (hs : s.seq = .idle) (h : step s = .next t) :
    t.lines = s.lines ∧ t.rxShift = s.rxShift ∧ t.ds = s.ds ∧ t.frameTrace = s.frameTrace ∧ t.cfg = s.cfg ∧
      t.draws = s.draws ∧ t.waveform = s.waveform ∧ t.written = s.written ∧
      (t.seq = .idle ∨
        ∃ cw i, decodeCommand cw = .ok i ∧ 0 < (commandFrames s.cfg i).length ∧ t.seq = .run cw 0 0) := by
  rcases hi : s.inputs with _ | ⟨cw | _ | _ | _, rest⟩
  · simp [step, nextMove, hs, hi, blockMoves, idleMove] at h
    cases h
    simp
  · cases hd : decodeCommand cw with
    | error e => simp [step, nextMove, hs, hi, blockMoves, idleMove, hd] at h
    | ok i =>
      have hx : step s = exec i { s with inputs := rest } := by
        simp [step, nextMove, hs, hi, blockMoves, idleMove, hd]
      rw [hx] at h
      obtain ⟨w, ⟨hw, hl⟩, h'⟩ | ⟨c, -, h'⟩ := exec_command_cases hd { s with inputs := rest }
      · rw [h', accept_idle _ _ (by simpa using hs)] at h
        cases h
        simp only [State.moveTo_lines, State.moveTo_rxShift, State.moveTo_ds, State.moveTo_frameTrace, State.moveTo_cfg,
          State.moveTo_draws, State.moveTo_waveform, State.moveTo_written, State.moveTo_seq, true_and]
        exact .inr ⟨w, i, hw, hl, rfl⟩
      · rw [h', execLookup] at h
        simp [hs] at h
        cases h
        simp
  · simp [step, nextMove, hs, hi, blockMoves, idleMove] at h
    cases h
    simp
  · simp [hi, blockMoves] at hb
  · simp [hi, blockMoves] at hb

end Sys2Proof.Machine
end

