-- ==== Sys2Proof/Laws/Run.lean ====
section
/-! SUPPORT. What a run of the 51 steps of a frame does, and what a command does from its acceptance to its end. -/

namespace Sys2Proof.Machine

/-- A run of no steps. -/
@[simp] theorem run_zero (s : State) : run 0 s = .next s := rfl

/-- One more step, at the front. -/
theorem run_step (n : Nat) (s : State) :
    run (n + 1) s =
      match step s with
      | .next t => run n t
      | .fault r => .fault r
      | .refused r => .refused r := rfl

/-- One more step first. -/
theorem run_succ (n : Nat) (s t : State) (h : step s = .next t) : run (n + 1) s = run n t := by
  rw [run_step, h]

/-- A run of the claims is a run of the host's interface. -/
theorem core_run_eq (n : Nat) : ∀ s : Sys2Proof.core.State, Host.Core.run Sys2Proof.core n s = run n s := by
  induction n with
  | zero => exact fun s => rfl
  | succ n ih =>
    intro s
    rw [Host.Core.run]
    simp only [ih]
    refine Eq.trans ?_ (run_step n s).symm
    show _ =
      match Sys2Proof.core.step s with
      | .next t => run n t
      | .fault r => .fault r
      | .refused r => .refused r
    generalize Sys2Proof.core.step s = o
    cases o <;> rfl

/-- A run of m + n steps is a run of m and then of n. -/
theorem run_add (m n : Nat) (s t : State) (h : run m s = .next t) : run (m + n) s = run n t := by
  induction m generalizing s with
  | zero =>
    cases h
    simp
  | succ m ih =>
    rw [Nat.add_right_comm]
    rw [run_step] at h ⊢
    cases hs : step s with
    | next u =>
      simp only [hs] at h ⊢
      exact ih u h
    | fault r => simp [hs] at h
    | refused r => simp [hs] at h

/-- Nothing from the outside comes first in inputs that hold no reset and no power-up. -/
theorem undisturbed_blockMoves {inputs : List Input} (h : undisturbed inputs = true) : blockMoves inputs = true := by
  rcases inputs with _ | ⟨_ | _ | _ | _, rest⟩ <;> first | rfl | (simp [undisturbed] at h)

/-- Waiting brings neither. -/
theorem undisturbed_tick {inputs : List Input} (h : undisturbed inputs = true) : undisturbed (tick inputs) = true := by
  rcases inputs with _ | ⟨_ | _ | _ | _, rest⟩ <;> simp_all [undisturbed, tick]

theorem undisturbed_ticks {inputs : List Input} (n : Nat) (h : undisturbed inputs = true) :
    undisturbed (ticks n inputs) = true := by
  induction n generalizing inputs with
  | zero => exact h
  | succ n ih => exact ih (undisturbed_tick h)

theorem ticks_add (m n : Nat) (inputs : List Input) : ticks (m + n) inputs = ticks n (ticks m inputs) := by
  induction m generalizing inputs with
  | zero => simp [ticks]
  | succ m ih =>
    rw [Nat.add_right_comm]
    exact ih (tick inputs)

/-- A latch and a line event do not look at the sequencer or at the inputs. -/
theorem latch_moveTo (s : State) (q : Seq) (ins : List Input) : latch (s.moveTo q ins) = (latch s).moveTo q ins := by
  unfold latch
  simp only [State.moveTo_cfg, State.moveTo_rxShift]
  cases h : s.cfg.regMap.find (frameAddr s.rxShift) <;> rfl

theorem afterLine_moveTo (s : State) (q : Seq) (ins : List Input) (e : LineEvent) :
    afterLine (s.moveTo q ins) e = (afterLine s e).moveTo q ins := by
  have h : emitLine e (s.moveTo q ins) = (emitLine e s).moveTo q ins := rfl
  have hl : loadRises e (s.moveTo q ins) = loadRises e s := rfl
  unfold afterLine
  rw [hl, h]
  split
  · rw [latch_moveTo]
  · rfl

theorem foldl_afterLine_moveTo (es : List LineEvent) (s : State) (q : Seq) (ins : List Input) :
    es.foldl afterLine (s.moveTo q ins) = (es.foldl afterLine s).moveTo q ins := by
  induction es generalizing s with
  | nil => rfl
  | cons e es ih => rw [List.foldl_cons, List.foldl_cons, afterLine_moveTo, ih]

@[simp] theorem foldl_afterLine_cfg (es : List LineEvent) (s : State) : (es.foldl afterLine s).cfg = s.cfg := by
  induction es generalizing s with
  | nil => rfl
  | cons e es ih => rw [List.foldl_cons, ih, afterLine_cfg]

@[simp] theorem foldl_afterLine_inputs (es : List LineEvent) (s : State) :
    (es.foldl afterLine s).inputs = s.inputs := by
  induction es generalizing s with
  | nil => rfl
  | cons e es ih => rw [List.foldl_cons, ih, afterLine_inputs]

theorem afterLine_withWritten (s : State) (w : Memory) (e : LineEvent) :
    afterLine (s.withWritten w) e = (afterLine s e).withWritten w := by
  have h : emitLine e (s.withWritten w) = (emitLine e s).withWritten w := rfl
  have hl : loadRises e (s.withWritten w) = loadRises e s := rfl
  have ht (t : State) : latch (t.withWritten w) = (latch t).withWritten w := by
    unfold latch
    simp only [State.withWritten_cfg, State.withWritten_rxShift]
    cases h : t.cfg.regMap.find (frameAddr t.rxShift) <;> rfl
  unfold afterLine
  rw [hl, h]
  split
  · rw [ht]
  · rfl

theorem foldl_afterLine_withWritten (es : List LineEvent) (s : State) (w : Memory) :
    es.foldl afterLine (s.withWritten w) = (es.foldl afterLine s).withWritten w := by
  induction es generalizing s with
  | nil => rfl
  | cons e es ih => rw [List.foldl_cons, List.foldl_cons, afterLine_withWritten, ih]

@[simp] theorem foldl_afterLine_written (es : List LineEvent) (s : State) :
    (es.foldl afterLine s).written = s.written := by
  induction es generalizing s with
  | nil => rfl
  | cons e es ih => rw [List.foldl_cons, ih, afterLine_written]

/-- The events of a frame by index are the events of `SendFrame`. -/
theorem frameEvents_eq (F : FrameWord) : (List.range 51).filterMap (frameEvent F) = sendFrame F := rfl

/-- Every index up to 50 has an event (R102). -/
theorem frameEvent_isSome (F : FrameWord) {k : Nat} (h : k ≤ 50) : ∃ e, frameEvent F k = some e := by
  unfold frameEvent
  repeat' split
  all_goals first | exact ⟨_, rfl⟩ | omega

/-- What the event of a position of a command is. -/
theorem eventAt_eq {cfg : Config} {cw : CmdWord} {i : Instr} {fr : Frame} {f k : Nat} {e : LineEvent}
    (hd : decodeCommand cw = .ok i) (hf : (commandFrames cfg i)[f]? = some fr)
    (he : frameEvent (frameWord fr) k = some e) : eventAt cfg cw f k = some (e, (commandFrames cfg i).length) := by
  simp [eventAt, hd, hf, he]

/-- From event k on, n events that stay inside the frame. -/
theorem run_events {cw : CmdWord} {i : Instr} {fr : Frame} {f : Nat} (n : Nat) {k : Nat} (s : State)
    (hu : undisturbed s.inputs = true) (hd : decodeCommand cw = .ok i) (hf : (commandFrames s.cfg i)[f]? = some fr)
    (hs : s.seq = .run cw f k) (hk : k + n ≤ 50) :
    run n s =
      .next ((((List.range' k n).filterMap (frameEvent (frameWord fr))).foldl afterLine s).moveTo
        (.run cw f (k + n)) (ticks n s.inputs)) := by
  induction n generalizing k s with
  | zero =>
    show Host.Outcome.next s = .next (s.moveTo (.run cw f k) s.inputs)
    rw [← hs, State.moveTo_self]
  | succ n ih =>
    obtain ⟨e, he⟩ := frameEvent_isSome (frameWord fr) (show k ≤ 50 by omega)
    have hq : nextSeq cw (commandFrames s.cfg i).length f k = .run cw f (k + 1) := by
      rw [nextSeq, if_pos (by omega)]
    rw [run_succ n s _ (step_event (undisturbed_blockMoves hu) hs (eventAt_eq hd hf he)), hq,
      commit_before _ _ _ _ (show k ≠ 50 by omega), ← State.moveTo_written s (.run cw f (k + 1)) (tick s.inputs),
      State.withWritten_self, afterLine_moveTo]
    rw [ih (k := k + 1) _ (undisturbed_tick hu) (by simpa using hf) rfl (by omega)]
    rw [List.range'_succ, List.filterMap_cons_some he, List.foldl_cons, foldl_afterLine_moveTo, State.moveTo_moveTo]
    simp only [ticks, Nat.add_assoc, Nat.add_comm 1 n, State.moveTo_inputs]

/-- A whole frame, from its event 0 to its event 50. -/
theorem run_frame {cw : CmdWord} {i : Instr} {fr : Frame} {f : Nat} (s : State)
    (hu : undisturbed s.inputs = true) (hd : decodeCommand cw = .ok i) (hf : (commandFrames s.cfg i)[f]? = some fr)
    (hs : s.seq = .run cw f 0) :
    run 51 s =
      .next ((((sendFrame (frameWord fr)).foldl afterLine s).moveTo
        (nextSeq cw (commandFrames s.cfg i).length f 50) (ticks 51 s.inputs)).withWritten
          (s.written.write fr.1.toNat fr.2)) := by
  rw [show (51 : Nat) = 50 + 1 from rfl, run_add 50 1 s _ (run_events 50 s hu hd hf hs (by omega))]
  have he : frameEvent (frameWord fr) 50 = some ⟨.load, true⟩ := rfl
  rw [run_succ 0 _ _ (step_event (undisturbed_blockMoves (undisturbed_ticks 50 hu)) rfl
    (eventAt_eq hd (by simpa using hf) he)), run_zero, ticks_add]
  have hr : List.range 51 = List.range' 0 50 ++ [50] := rfl
  rw [← frameEvents_eq, hr, List.filterMap_append, List.foldl_append, List.filterMap_cons_some he]
  have hfr : frameAt s.cfg cw f = some fr := by simp [frameAt, hd, hf]
  simp only [afterLine_withWritten, afterLine_moveTo, State.moveTo_moveTo, foldl_afterLine_cfg, State.moveTo_cfg,
    State.moveTo_inputs, State.moveTo_written, foldl_afterLine_written, commit_last _ hfr, List.filterMap_nil,
    List.foldl_cons, List.foldl_nil]
  rfl

/-- Bit i of the shift register after a shift (R33). -/
theorem shiftIn_bit (rx : BitVec 16) (b : Bool) (i : Nat) :
    (shiftIn rx b).getLsbD i = if i = 0 then b else (decide (i < 16) && rx.getLsbD (i - 1)) := by
  show BitVec.getLsbD (w := 15 + 1) (rx.extractLsb' 0 15 ++ BitVec.ofBool b) i = _
  rw [BitVec.getLsbD_append, BitVec.getLsbD_extractLsb']
  by_cases h : i = 0
  · simp [h]
  · have e : ¬ i < 1 := by omega
    have e' : (i - 1 < 15) = (i < 16) := by
      apply propext
      omega
    simp [h, e, e']

/-- One bit of a frame: DATA takes it, CLOCK falls and rises, and the receiver shifts it in (R101, R33). -/
theorem foldl_bit (s : State) (b : Bool) :
    [(⟨.data, b⟩ : LineEvent), ⟨.clock, false⟩, ⟨.clock, true⟩].foldl afterLine s =
      { s with
        lines := ⟨b, true, s.lines.load⟩
        rxShift := shiftIn s.rxShift b
        waveform := s.waveform ++ triplesFrom s.lines [⟨.data, b⟩, ⟨.clock, false⟩, ⟨.clock, true⟩]
        callTrace := s.callTrace ++ [.line ⟨.data, b⟩, .line ⟨.clock, false⟩, .line ⟨.clock, true⟩] } := by
  have hw (l : Lines) (e₁ e₂ e₃ : LineEvent) : triplesFrom l [e₁, e₂, e₃] =
      triplesFrom l [e₁] ++ (triplesFrom (l.set e₁.id e₁.level) [e₂] ++
        triplesFrom ((l.set e₁.id e₁.level).set e₂.id e₂.level) [e₃]) := by
    rw [triplesFrom_cons, triplesFrom_cons _ e₂]
  simp [hw, afterLine, loadRises, emitLine, State.setLine, Lines.set, Lines.get, LineEvent.rises]

/-- A bit of a frame leaves DATA at the bit, CLOCK high and LOAD where it was (R101). -/
theorem linesAfter_bit (l : Lines) (b : Bool) :
    linesAfter l [⟨.data, b⟩, ⟨.clock, false⟩, ⟨.clock, true⟩] = ⟨b, true, l.load⟩ := rfl

/-- The bits of a frame, one after another. -/
theorem foldl_bits (bs : List Bool) (s : State) (hb : bs ≠ []) :
    (bs.flatMap fun b => [(⟨.data, b⟩ : LineEvent), ⟨.clock, false⟩, ⟨.clock, true⟩]).foldl afterLine s =
      { s with
        lines := ⟨bs.getLast hb, true, s.lines.load⟩
        rxShift := bs.foldl shiftIn s.rxShift
        waveform := s.waveform ++
          triplesFrom s.lines (bs.flatMap fun b => [⟨.data, b⟩, ⟨.clock, false⟩, ⟨.clock, true⟩])
        callTrace := s.callTrace ++
          bs.flatMap fun b => [.line ⟨.data, b⟩, .line ⟨.clock, false⟩, .line ⟨.clock, true⟩] } := by
  induction bs generalizing s with
  | nil => exact absurd rfl hb
  | cons b bs ih =>
    rw [List.flatMap_cons, List.foldl_append, foldl_bit]
    cases bs with
    | nil => simp
    | cons c cs =>
      rw [ih _ (by simp), List.flatMap_cons (x := b), triplesFrom_append s.lines, linesAfter_bit]
      simp

/-- The bits of a frame leave DATA at the last of them, CLOCK high and LOAD where it was (R101). -/
theorem linesAfter_bits (bs : List Bool) (l : Lines) (hb : bs ≠ []) :
    linesAfter l (bs.flatMap fun b => [(⟨.data, b⟩ : LineEvent), ⟨.clock, false⟩, ⟨.clock, true⟩]) =
      ⟨bs.getLast hb, true, l.load⟩ := by
  induction bs generalizing l with
  | nil => exact absurd rfl hb
  | cons b bs ih =>
    cases bs with
    | nil => rfl
    | cons c cs => exact ih ⟨b, true, l.load⟩ (by simp)

/-- The sixteen bits of a frame in the order they are sent (R43). -/
def frameBits (F : FrameWord) : List Bool := (List.range 16).map fun j => F.getLsbD (15 - j)

theorem sendFrame_eq (F : FrameWord) :
    sendFrame F =
      ⟨.load, true⟩ :: ((frameBits F).flatMap fun b => [⟨.data, b⟩, ⟨.clock, false⟩, ⟨.clock, true⟩]) ++
        [⟨.load, false⟩, ⟨.load, true⟩] := rfl

/-- Sixteen shifts leave exactly the frame, whatever was there (R105). -/
theorem foldl_frameBits (F : FrameWord) (rx : BitVec 16) : (frameBits F).foldl shiftIn rx = F := by
  apply BitVec.eq_of_getLsbD_eq
  intro i hi
  have hl : frameBits F = [F.getLsbD 15, F.getLsbD 14, F.getLsbD 13, F.getLsbD 12, F.getLsbD 11, F.getLsbD 10,
    F.getLsbD 9, F.getLsbD 8, F.getLsbD 7, F.getLsbD 6, F.getLsbD 5, F.getLsbD 4, F.getLsbD 3, F.getLsbD 2,
    F.getLsbD 1, F.getLsbD 0] := rfl
  rw [hl]
  simp only [List.foldl_cons, List.foldl_nil, shiftIn_bit]
  interval_cases i <;> rfl

/-- What a latch does to the two things it changes (R34). -/
theorem latch_eq (s : State) :
    latch s =
      { s with
        ds := deliver s.cfg.regMap s.ds [s.rxShift]
        frameTrace := s.frameTrace ++ [s.rxShift] } := by
  obtain ⟨r, hf, h⟩ | ⟨hf, h⟩ := latch_cases s <;> rw [h]
  · have ha := RegMap.find_addr hf
    simp [latchInto, recordFrame, deliver, hf, ha]
  · simp [recordFrame, deliver, hf]

/-- What sending one whole frame does (R103, R105, R171). -/
theorem foldl_sendFrame (F : FrameWord) (s : State) :
    (sendFrame F).foldl afterLine s =
      { s with
        lines := ⟨F.getLsbD 0, true, true⟩
        rxShift := F
        ds := deliver s.cfg.regMap s.ds (spurious s ++ [F])
        callTrace := s.callTrace ++ (sendFrame F).map .line
        waveform := s.waveform ++ triplesFrom s.lines (sendFrame F)
        frameTrace := s.frameTrace ++ spurious s ++ [F] } := by
  have h0 : afterLine s ⟨.load, true⟩ =
      { s with
        lines := { s.lines with load := true }
        ds := deliver s.cfg.regMap s.ds (spurious s)
        callTrace := s.callTrace ++ [.line ⟨.load, true⟩]
        waveform := s.waveform ++ triplesFrom s.lines [⟨.load, true⟩]
        frameTrace := s.frameTrace ++ spurious s } := by
    cases hl : s.lines.load with
    | true => simp [afterLine, loadRises, emitLine, State.setLine, LineEvent.rises, Lines.get, Lines.set, hl, spurious, deliver]
    | false =>
      simp [afterLine, loadRises, emitLine, State.setLine, LineEvent.rises, Lines.get, Lines.set, hl, spurious, latch_eq]
  have hlast : (frameBits F).getLast (by simp [frameBits]) = F.getLsbD 0 := rfl
  have hw : triplesFrom s.lines (sendFrame F) =
      triplesFrom s.lines [⟨.load, true⟩] ++
        (triplesFrom ⟨s.lines.data, s.lines.clock, true⟩
            ((frameBits F).flatMap fun b => [⟨.data, b⟩, ⟨.clock, false⟩, ⟨.clock, true⟩]) ++
          (triplesFrom ⟨F.getLsbD 0, true, true⟩ [⟨.load, false⟩] ++
            triplesFrom ⟨F.getLsbD 0, true, false⟩ [⟨.load, true⟩])) := by
    rw [sendFrame_eq, List.cons_append, triplesFrom_cons, triplesFrom_append, linesAfter_bits _ _ (by simp [frameBits]), hlast]
    rfl
  rw [hw, sendFrame_eq, List.cons_append, List.foldl_cons, h0, List.foldl_append, foldl_bits _ _ (by simp [frameBits]),
    foldl_frameBits, hlast]
  simp [afterLine, loadRises, emitLine, State.setLine, LineEvent.rises, Lines.get, Lines.set, latch_eq, deliver, List.foldl_append,
    List.map_flatMap]

/-- Delivering two lists of frames is delivering the first and then the second. -/
theorem deliver_append (m : RegMap) (ds : Memory) (ws ws' : List FrameWord) :
    deliver m ds (ws ++ ws') = deliver m (deliver m ds ws) ws' := by
  simp [deliver, List.foldl_append]

/-- What one more frame does to a read (R34). -/
theorem deliver_frame_read (m : RegMap) (ds : Memory) (fr : Frame) (x : Nat) :
    (deliver m ds [frameWord fr]).read x =
      if (m.find fr.1).isSome = true ∧ x = fr.1.toNat then some fr.2 else ds.read x := by
  simp only [deliver, List.foldl_cons, List.foldl_nil, frameAddr_frameWord, frameData_frameWord]
  by_cases h : (m.find fr.1).isSome = true
  · rw [if_pos h]
    by_cases hx : x = fr.1.toNat
    · subst hx
      simp [h]
    · rw [if_neg (by simp [hx]), Memory.read_write_other _ _ _ _ hx]
  · rw [if_neg h, if_neg (by simp [h])]

/-- Sending a list of frames, one after another with nothing between them (R120). -/
def afterFrames (fs : List Frame) (s : State) : State :=
  fs.foldl (fun s fr => (sendFrame (frameWord fr)).foldl afterLine s) s

theorem afterFrames_moveTo (fs : List Frame) (s : State) (q : Seq) (ins : List Input) :
    afterFrames fs (s.moveTo q ins) = (afterFrames fs s).moveTo q ins := by
  induction fs generalizing s with
  | nil => rfl
  | cons fr fs ih =>
    show afterFrames fs ((sendFrame (frameWord fr)).foldl afterLine (s.moveTo q ins)) = _
    rw [foldl_afterLine_moveTo, ih]
    rfl

theorem afterFrames_withWritten (fs : List Frame) (s : State) (w : Memory) :
    afterFrames fs (s.withWritten w) = (afterFrames fs s).withWritten w := by
  induction fs generalizing s with
  | nil => rfl
  | cons fr fs ih =>
    show afterFrames fs ((sendFrame (frameWord fr)).foldl afterLine (s.withWritten w)) = _
    rw [foldl_afterLine_withWritten, ih]
    rfl

/-- A frame leaves DATA at its last bit and the other two lines high (R103). -/
theorem linesAfter_sendFrame (l : Lines) (F : FrameWord) :
    linesAfter l (sendFrame F) = ⟨F.getLsbD 0, true, true⟩ := rfl

/-- What a list of frames does in all: only the first of them can have a spurious latch before it (R103, R171). -/
theorem afterFrames_eq (fs : List Frame) (s : State) (h : fs ≠ []) :
    afterFrames fs s =
      { s with
        lines := ⟨(frameWord (fs.getLast h)).getLsbD 0, true, true⟩
        rxShift := frameWord (fs.getLast h)
        ds := deliver s.cfg.regMap s.ds (spurious s ++ fs.map frameWord)
        callTrace := s.callTrace ++ fs.flatMap fun fr => (sendFrame (frameWord fr)).map .line
        waveform := s.waveform ++ triplesFrom s.lines (fs.flatMap fun fr => sendFrame (frameWord fr))
        frameTrace := s.frameTrace ++ spurious s ++ fs.map frameWord } := by
  induction fs generalizing s with
  | nil => exact absurd rfl h
  | cons fr fs ih =>
    show afterFrames fs ((sendFrame (frameWord fr)).foldl afterLine s) = _
    rw [foldl_sendFrame]
    cases fs with
    | nil => simp [afterFrames]
    | cons fr' fs =>
      rw [ih _ (by simp), List.flatMap_cons (x := fr), List.flatMap_cons (x := fr), triplesFrom_append s.lines,
        linesAfter_sendFrame]
      simp [spurious, deliver, List.foldl_append]

/-- From the start of a frame of a command to the command's end. -/
theorem run_frames {cw : CmdWord} {i : Instr} (fs : List Frame) {f : Nat} (s : State)
    (hu : undisturbed s.inputs = true) (hd : decodeCommand cw = .ok i) (hf : (commandFrames s.cfg i).drop f = fs)
    (hne : fs ≠ []) (hs : s.seq = .run cw f 0) :
    run (51 * fs.length) s =
      .next (((afterFrames fs s).moveTo .idle (ticks (51 * fs.length) s.inputs)).withWritten (commitAll s.written fs)) := by
  induction fs generalizing f s with
  | nil => exact absurd rfl hne
  | cons fr fs ih =>
    have hlen : f < (commandFrames s.cfg i).length := by
      have := congrArg List.length hf
      simp at this
      omega
    have hget : (commandFrames s.cfg i)[f]? = some fr := by
      have := congrArg List.head? hf
      simpa [List.head?_drop] using this
    have hdrop : (commandFrames s.cfg i).drop (f + 1) = fs := by
      have := congrArg List.tail hf
      simpa [List.tail_drop] using this
    have h1 := run_frame s hu hd hget hs
    rw [List.length_cons, Nat.mul_add, Nat.mul_one, Nat.add_comm, run_add _ _ _ _ h1]
    cases fs with
    | nil =>
      have hq : nextSeq cw (commandFrames s.cfg i).length f 50 = .idle := by
        have := congrArg List.length hdrop
        simp at this
        simp [nextSeq]
        omega
      rw [hq]
      simp only [List.length_nil, Nat.mul_zero, Nat.add_zero, run_zero, afterFrames, commitAll, List.foldl_cons, List.foldl_nil]
    | cons fr' fs =>
      have hq : nextSeq cw (commandFrames s.cfg i).length f 50 = .run cw (f + 1) 0 := by
        have := congrArg List.length hdrop
        simp at this
        simp [nextSeq]
        omega
      rw [hq, ih _ (undisturbed_ticks 51 hu) (by simpa using hdrop) (by simp) rfl]
      rw [afterFrames_withWritten, afterFrames_moveTo, State.withWritten_moveTo, State.moveTo_moveTo,
        State.withWritten_inputs, State.moveTo_inputs, ← ticks_add]
      simp only [afterFrames, commitAll, List.foldl_cons, State.withWritten_withWritten, State.withWritten_written]

/-- A command with frames, from its acceptance in IDLE to its end (R24, R120, R133). -/
theorem run_command {cw : CmdWord} {i : Instr} {fr : Frame} (s : State) (hu : undisturbed s.inputs = true)
    (hd : decodeCommand cw = .ok i) (hl : (commandFrames s.cfg i).getLast? = some fr) :
    ∃ t, run (51 * (commandFrames s.cfg i).length) (s.moveTo (.run cw 0 0) s.inputs) = .next t ∧
      Sent (commandFrames s.cfg i) fr s t := by
  have hne : commandFrames s.cfg i ≠ [] := by
    intro h
    simp [h] at hl
  have hfr : (commandFrames s.cfg i).getLast hne = fr := by
    rw [List.getLast?_eq_some_getLast hne] at hl
    exact Option.some.inj hl
  refine ⟨_, run_frames _ (s.moveTo (.run cw 0 0) s.inputs) hu hd (by simp) hne rfl, ?_⟩
  rw [afterFrames_moveTo, State.moveTo_moveTo, State.moveTo_inputs, afterFrames_eq _ _ hne, hfr]
  constructor <;> rfl

end Sys2Proof.Machine
end

