-- ==== Sys2Proof/Tests/Slice0.lean ====
section
/-! SUPPORT. The author's own tests: expected values are the spec's worked examples and vectors (95_test_vectors.md), each
test names its section; and for every statement with hypotheses a witness that meets them. -/

namespace Sys2Proof.Tests

open Sys2Proof Sys2Proof.Machine

/-- The outcome is a next state with the property. -/
def nextIs (o : Host.Outcome State Fault Refusal) (p : State → Bool) : Bool :=
  match o with
  | .next t => p t
  | .fault _ => false
  | .refused _ => false

/-- The outcome is the refusal of a word, for the reason. -/
def refusedFor (o : Host.Outcome State Fault Refusal) (why : DecodeError) : Bool :=
  match o with
  | .next _ => false
  | .fault _ => false
  | .refused r => decide (r = .spellsNoCommand why)

/-- Lines (0, 1, 1), the start of the spec's programs (95 section 3). -/
def high : Lines := ⟨false, true, true⟩

/-- An idle block with steady lines and the inputs. -/
def idleAt (inputs : List Input) : State := { State.reset with inputs := inputs, lines := high, waveform := [high] }

/-- A block at event k of WRREG 0x01, 0xF7, sent from the lines (0, 1, 1), with the levels of the table of 95 section 2.1
before that event, and with given `RESET_LINES`. -/
def sending (k : Nat) (resetLines : Lines) (inputs : List Input) : State :=
  { State.reset with
    cfg := { Config.default with resetLines := resetLines }
    inputs := inputs
    seq := .run 0x2001F7 0 k
    lines := linesAfter high ((sendFrame 0x01F7).take k)
    waveform := [linesAfter high ((sendFrame 0x01F7).take k)]
    rxShift := (BitVec.ofNat 16 0x01F7) >>> (16 - (k - 1) / 3) }

/-! ### What is well formed -/

theorem test_wf_reserved_opcode_refused :
    (CmdFields.wf ⟨0x0, 0, false, 0, 0⟩ || CmdFields.wf ⟨0xC, 0, false, 0, 0⟩ || CmdFields.wf ⟨0xF, 0, false, 0, 0⟩) = false := by
  decide

theorem test_wf_reserved_bits_refused : CmdFields.wf ⟨0x6, 1, false, 0, 0⟩ = false := by decide

theorem test_wf_dp_refused : CmdFields.wf ⟨0x3, 0, true, 0, 0⟩ = false := by decide

theorem test_wf_a_refused : (CmdFields.wf ⟨0x1, 0, false, 1, 0⟩ || CmdFields.wf ⟨0x4, 0, false, 1, 0⟩) = false := by decide

theorem test_wf_b_refused : (CmdFields.wf ⟨0x3, 0, false, 0, 1⟩ || CmdFields.wf ⟨0xB, 0, false, 0, 1⟩) = false := by decide

theorem test_wf_fields_accepted : (CmdFields.wf ⟨0x6, 0, true, 0xFF, 0xFF⟩ && CmdFields.wf ⟨0x2, 0, false, 0xFF, 0xFF⟩) = true := by
  decide

theorem test_wf_default_config : Config.default.wf = true := by decide

theorem test_wf_map_not_distinct : RegMap.wf { RegMap.default with digit2 := 0x01 } = false := by decide

theorem test_wf_map_out_of_range : RegMap.wf { RegMap.default with shutdown := 0x1C } = false := by decide

theorem test_wf_map_noop : RegMap.wf { RegMap.default with displayTest := 0x00 } = false := by decide

theorem test_wf_aux_no_digit : Config.wf { Config.default with auxAddr := 0x0A } = false := by decide

theorem test_wf_rom_a : Config.wf { Config.default with rom := (0x41, 0x76) :: romDefault.eraseIdx 12 } = false := by decide

theorem test_wf_rom_misses_a_digit : Config.wf { Config.default with rom := romDefault.eraseIdx 2 } = false := by decide

theorem test_wf_rom_lowercase : Config.wf { Config.default with romExt := [(0x61, 0x77)] } = false := by decide

theorem test_wf_rom_twice : Config.wf { Config.default with romExt := [(0x30, 0x00)] } = false := by decide

/-! ### Words written out from the encodings: 95 sections 2.2 to 2.5; 30 sections 1 to 3 -/

theorem test_decode_lookup : decodeTableWord 24 0b0001_000_0_00000000_01100001 = some (.lookup 0x61) := by decide

theorem test_decode_wrreg : decodeTableWord 24 0b0010_000_0_00000001_11110111 = some (.wrreg 0x01 0xF7) := by decide

theorem test_decode_init : decodeTableWord 24 0b0011_000_0_00000000_00000000 = some .init := by decide

theorem test_decode_setbrt : decodeTableWord 24 0b0100_000_0_00000000_00010100 = some (.setbrt 20) := by decide

theorem test_decode_clrall : decodeTableWord 24 0b0101_000_0_00000000_00000000 = some .clrall := by decide

theorem test_decode_dispch :
    decodeTableWord 24 0b0110_000_1_00000001_01000001 = some (.dispch 1 0x41 true) ∧
    decodeTableWord 24 0x61FF46 = some (.dispch 255 0x46 true) ∧
    decodeTableWord 24 0x600C30 = some (.dispch 12 0x30 false) := by decide

theorem test_decode_auxdot : decodeTableWord 24 0b0111_000_0_00000000_00000111 = some (.auxdot 0x07) := by decide

theorem test_decode_shdnon : decodeTableWord 24 0x800000 = some .shdnon := by decide

theorem test_decode_shdnoff : decodeTableWord 24 0x900000 = some .shdnoff := by decide

theorem test_decode_teston : decodeTableWord 24 0xA00000 = some .teston := by decide

theorem test_decode_testoff : decodeTableWord 24 0xB00000 = some .testoff := by decide

theorem test_decode_frames :
    decodeTableWord 16 0b00000000_00000111 = some (.frameNoop 0x07) ∧
    decodeTableWord 16 0b00000001_11110111 = some (.frameDigit1 0xF7) ∧
    decodeTableWord 16 0x0211 = some (.frameDigit2 0x11) ∧ decodeTableWord 16 0x0370 = some (.frameDigit3 0x70) ∧
    decodeTableWord 16 0x0444 = some (.frameDigit4 0x44) ∧ decodeTableWord 16 0x0555 = some (.frameDigit5 0x55) ∧
    decodeTableWord 16 0x0666 = some (.frameDigit6 0x66) ∧ decodeTableWord 16 0x0777 = some (.frameDigit7 0x77) ∧
    decodeTableWord 16 0x08FF = some (.frameDigit8 0xFF) ∧ decodeTableWord 16 0x097F = some (.frameDecode 0x7F) ∧
    decodeTableWord 16 0b00001010_00000101 = some (.frameIntensity 0x05) ∧
    decodeTableWord 16 0x0B07 = some (.frameScanLimit 0x07) ∧ decodeTableWord 16 0x0C01 = some (.frameShutdown 0x01) ∧
    decodeTableWord 16 0x0F01 = some (.frameDisplayTest 0x01) := by decide

/-- An address without a row: 0x0D, 0x0E, 0x10 and up (30 section 5). -/
theorem test_decode_frames_without_row :
    decodeTableWord 16 0x0D07 = none ∧ decodeTableWord 16 0x0E00 = none ∧ decodeTableWord 16 0x1000 = none ∧
    decodeTableWord 16 0xFFFF = none := by decide

/-- 95 section 2.5, with the reasons. -/
theorem test_refused_words :
    decodeCommand 0x000000 = .error .reservedOpcode ∧ decodeCommand 0xC00000 = .error .reservedOpcode ∧
    decodeCommand 0xF00000 = .error .reservedOpcode ∧ decodeCommand 0x300001 = .error .unusedBSet ∧
    decodeCommand 0x310000 = .error .unusedDpSet ∧ decodeCommand 0x620000 = .error .reservedBitsSet ∧
    decodeCommand 0x100161 = .error .unusedASet ∧ decodeCommand 0x400114 = .error .unusedASet ∧
    decodeCommand 0x2FFFFF = .error .reservedBitsSet := ⟨rfl, rfl, rfl, rfl, rfl, rfl, rfl, rfl, rfl⟩

/-- 95 section 2.5, the legal rows. -/
theorem test_legal_corner_words :
    decodeTableWord 24 0x200000 = some (.wrreg 0 0) ∧ decodeTableWord 24 0x20FFFF = some (.wrreg 0xFF 0xFF) ∧
    decodeTableWord 24 0x61FFFF = some (.dispch 255 0xFF true) := by decide

/-- 30 section 7: characters in quotes, and `dp` 0 or 1 only. -/
theorem test_text :
    assemble ⟨"DISPCH", [.num 1, .chr 'a', .num 1]⟩ = some (.dispch 1 0x61 true) ∧
    assemble ⟨"DISPCH", [.num 1, .chr 'a', .num 2]⟩ = none ∧ assemble ⟨"SETBRT", [.num 256]⟩ = none ∧
    assemble ⟨"INIT", [.num 0]⟩ = none := by decide

/-- 95 section 1, S6, as an API call. -/
theorem test_api_display_character :
    (ApiCall.displayCharacter 1 0x61 0x80).toInstr = some (.dispch 1 0x61 true) ∧
    (ApiCall.displayCharacter 1 0x61 0x01).toInstr = none := by decide

/-! ### The commands: 95 sections 2.2 to 2.4 -/

theorem test_lookup_vectors :
    [0x00, 0x20, 0x2E, 0x2F, 0x30, 0x39, 0x3A, 0x40, 0x41, 0x46, 0x47, 0x5A, 0x60, 0x61, 0x62, 0x66, 0x67, 0x7A, 0x7B,
      0xC1, 0xFF].map (lookup Config.default) =
    [0x00, 0x00, 0x80, 0x00, 0x7E, 0x7B, 0x00, 0x00, 0x77, 0x47, 0x00, 0x00, 0x00, 0x77, 0x1F, 0x47, 0x00, 0x00, 0x00,
      0x00, 0x00] := by decide

/-- One step emits the result; the lines and `SEQ` stay (95 section 2.2). -/
theorem test_lookup_step :
    nextIs (step (State.reset.withFetchWord 24 0x100061)) (fun t =>
      t.callTrace == [.result 0x77] && t.seq == .idle && t.lines == State.reset.lines && t.inputs == []) = true := by
  decide

/-- One step accepts each command that sends frames, with no event (10 section 4). -/
theorem test_commands_are_accepted :
    [0x2001F7, 0x300000, 0x400014, 0x500000, 0x610161, 0x700007, 0x800000, 0x900000, 0xA00000, 0xB00000].all (fun w =>
      nextIs (step (State.reset.withFetchWord 24 w)) fun t =>
        t.seq == .run (BitVec.ofNat 24 w) 0 0 && t.callTrace == [] && busy t) = true := by decide

/-- A word that spells no command (95 section 2.5). -/
theorem test_refuse_step : refusedFor (step (idleAt [.command 0x620000])) .reservedBitsSet = true := by decide

theorem test_wrreg_frames : (commandFrames Config.default (.wrreg 0xFF 0xFF)).map frameWord = [0xFFFF] := by decide

theorem test_init_frames :
    (commandFrames Config.default .init).map frameWord =
      [0x0B07, 0x0900, 0x0C01, 0x0F00, 0x0100, 0x0200, 0x0300, 0x0400, 0x0500, 0x0600, 0x0700, 0x0800, 0x0A0F] := by
  decide

theorem test_clrall_frames :
    (commandFrames Config.default .clrall).map frameWord =
      [0x0100, 0x0200, 0x0300, 0x0400, 0x0500, 0x0600, 0x0700, 0x0800] := by decide

theorem test_setbrt_frames :
    [0, 1, 15, 16, 20, 128, 255].map (fun b => (commandFrames Config.default (.setbrt b)).map frameWord) =
      [[0x0A00], [0x0A01], [0x0A0F], [0x0A00], [0x0A04], [0x0A00], [0x0A0F]] := by decide

theorem test_auxdot_frames :
    [0x00, 0x01, 0x02, 0x04, 0x07, 0x08, 0x0F, 0x10, 0xF7, 0xFF].map
      (fun b => (commandFrames Config.default (.auxdot b)).map frameWord) =
      [[0x0300], [0x0310], [0x0320], [0x0340], [0x0370], [0x0380], [0x03F0], [0x0300], [0x0370], [0x03F0]] := by decide

theorem test_dispch_frames :
    [(0x01, 0x41, true), (0x01, 0x61, true), (0x01, 0x41, false), (0x08, 0x38, false), (0x08, 0x38, true),
      (0x01, 0x2E, false), (0x01, 0x2E, true), (0x01, 0xFF, true), (0x04, 0x78, false), (0x00, 0x31, false),
      (0x0C, 0x30, false), (0xFF, 0x46, true)].map
      (fun p => (commandFrames Config.default (.dispch p.1 p.2.1 p.2.2)).map frameWord) =
      [[0x01F7], [0x01F7], [0x0177], [0x087F], [0x08FF], [0x0180], [0x0180], [0x0180], [0x0400], [0x0030], [0x0C7E],
        [0xFFC7]] := by decide

theorem test_shutdown_and_test_frames :
    [Instr.shdnon, .shdnoff, .teston, .testoff].map (fun i => (commandFrames Config.default i).map frameWord) =
      [[0x0C00], [0x0C01], [0x0F01], [0x0F00]] := by decide

/-! ### Events and the receiver: 95 sections 2.1, 2.6, 2.7 -/

/-- The rows k = 0, 1, 21, 22, 37, 40, 48, 49, 50 of the table of section 2.1. -/
theorem test_events_of_a_frame :
    [0, 1, 21, 22, 37, 40, 48, 49, 50, 51].map (frameEvent 0x01F7) =
      [some ⟨.load, true⟩, some ⟨.data, false⟩, some ⟨.clock, true⟩, some ⟨.data, true⟩, some ⟨.data, false⟩,
        some ⟨.data, true⟩, some ⟨.clock, true⟩, some ⟨.load, false⟩, some ⟨.load, true⟩, none] := by decide

/-- "51 events, 37 of them level-changing"; from (0, 0, 0) it is 41 for 0x0A05 (sections 2.1 and 2.6). -/
theorem test_level_changes :
    (sendFrame 0x01F7).length = 51 ∧ (triplesFrom high (sendFrame 0x01F7)).length = 37 ∧
    (triplesFrom ⟨false, false, false⟩ (sendFrame 0x0A05)).length = 41 := by decide

theorem test_shift : shiftIn 0x0000 true = 0x0001 ∧ shiftIn 0x8001 false = 0x0002 := by decide

/-- Event 48 shifts the last bit in, event 50 latches (section 2.1). -/
theorem test_last_shift_and_latch :
    nextIs (step (sending 48 high [])) (fun t => t.rxShift == 0x01F7 && t.frameTrace == []) = true ∧
    nextIs (step (sending 50 high [])) (fun t =>
      t.seq == .idle && t.ds == [(0x01, 0xF7)] && t.frameTrace == [0x01F7] && t.lines == ⟨true, true, true⟩) = true := by
  decide

/-- Each row of the receiver, one step on the frame `address ‖ 0xA5`: the frame is recorded and the register written. -/
theorem test_latch_step :
    [0x01, 0x02, 0x03, 0x04, 0x05, 0x06, 0x07, 0x08, 0x09, 0x0A, 0x0B, 0x0C, 0x0F].all (fun a =>
      nextIs (step (State.reset.withFetchWord 16 (256 * a + 0xA5))) fun t =>
        t.ds == [(a, 0xA5)] && t.frameTrace == [BitVec.ofNat 16 (256 * a + 0xA5)]) = true := by decide

/-- 0x0D07 and 0x0007 are recorded and change nothing (section 2.7). -/
theorem test_latch_without_register :
    [0x0D07, 0x0007].all (fun w =>
      nextIs (step (State.reset.withFetchWord 16 w)) fun t => t.ds == [] && t.frameTrace == [BitVec.ofNat 16 w]) = true := by
  decide

/-- A reset in mid-frame to low lines, in each order of the line changes: no edge rises, the shift register and the device
stay, and each of the two lines that were high adds a triple to the waveform (70 section 1, 00 section 4). -/
theorem test_reset_lines : ∀ n : Fin 6,
    let t := (lineOrder n).foldl resetLine (sending 30 ⟨false, false, false⟩ [])
    t.lines = ⟨false, false, false⟩ ∧ t.rxShift = (sending 30 high []).rxShift ∧ t.callTrace = [] ∧ t.frameTrace = [] ∧
      t.ds = [] ∧ t.waveform.length = 3 ∧ t.waveform.getLast? = some ⟨false, false, false⟩ := by decide

/-- A read of a register that nothing was latched into faults (10 section 8). -/
theorem test_no_value : readReg State.reset .shutdown = .error (.dsNoValue 0x0C) := rfl

/-- The register space as INIT leaves it (42 section 2). -/
def initialised : Memory :=
  [(0x01, 0), (0x02, 0), (0x03, 0), (0x04, 0), (0x05, 0), (0x06, 0), (0x07, 0), (0x08, 0), (0x09, 0x00), (0x0A, 0x0F),
    (0x0B, 0x07), (0x0C, 0x01), (0x0F, 0x00)]

/-- A value the block did not write leaves the device uninitialized: 0x55 in the shutdown register, which no WRREG sent (42
section 5, 70 section 3); and so does an entry without a value. -/
theorem test_uninitialized :
    uninitialized { State.reset with ds := initialised, written := initialised } = false ∧
    uninitialized { State.reset with ds := initialised.write 0x0C 0x55, written := initialised.eraseIdx 11 } = true ∧
    uninitialized { State.reset with ds := initialised.eraseIdx 11, written := initialised.eraseIdx 11 } = true := by decide

/-- The views of values that have a meaning and of values that have none (10 section 7). -/
theorem test_views :
    scanView { State.reset with ds := initialised } = .ok (some .full) ∧
    decodeView { State.reset with ds := initialised } = .ok (some .noDecode) ∧
    scanView { State.reset with ds := initialised.write 0x0B 0x03 } = .ok none ∧
    decodeView { State.reset with ds := initialised.write 0x09 0xFF } = .ok none ∧
    segmentView { State.reset with ds := initialised.write 0x01 0x80 } .digit1 .dp = .ok (some true) ∧
    segmentView { State.reset with ds := initialised.write 0x09 0xFF } .digit1 .dp = .ok none ∧
    segmentView { State.reset with ds := initialised } .intensity .a = .ok none := ⟨rfl, rfl, rfl, rfl, rfl, rfl, rfl⟩

/-! ### Witnesses: for each statement with hypotheses, a state and operands that meet all of them -/

theorem sending_frame (k : Nat) (l : Lines) (ins : List Input) (F : FrameWord)
    (h : currentFrame (sending k l ins).cfg 0x2001F7 0 = some F) : F = 0x01F7 := by
  have : currentFrame (sending k l ins).cfg 0x2001F7 0 = some 0x01F7 := rfl
  rw [this] at h
  exact (Option.some.inj h).symm

/-- The two ends of a frame, its first and eighth and ninth and last bits, and the latch: the invariant holds there. -/
theorem sending_inv (k : Nat) (hk : k ∈ [0, 1, 2, 3, 22, 24, 27, 48, 49, 50]) (rl : Lines) (hr : rl = high ∨ rl = ⟨false, false, false⟩)
    (ins : List Input) : StateInv (sending k rl ins) ∧ framed (sending k rl ins) := by
  constructor
  · refine ⟨?_, List.Pairwise.nil, List.Pairwise.nil, by simp [sending, State.reset], ?_, ?_⟩
    · rcases hr with rfl | rfl
      · exact (by decide : Config.wf { Config.default with resetLines := high } = true)
      · exact (by decide : Config.wf { Config.default with resetLines := ⟨false, false, false⟩ } = true)
    · exact ⟨.wrreg 0x01 0xF7, rfl, by show 0 < 1; omega, by simp at hk; omega⟩
    · intro F hF
      cases sending_frame k rl ins F hF
      simp only [List.mem_cons, List.not_mem_nil, or_false] at hk
      rcases hk with rfl | rfl | rfl | rfl | rfl | rfl | rfl | rfl | rfl | rfl <;> constructor <;> intros <;>
        first | omega | rfl | exact Or.inr ⟨rfl, rfl⟩ | exact ⟨rfl, rfl⟩ | exact Or.inr rfl
  · intro cw f k' F hq hF
    cases hq
    cases sending_frame k rl ins F hF
    show ∀ j, j < (k - 1) / 3 → ((BitVec.ofNat 16 0x01F7) >>> (16 - (k - 1) / 3)).getLsbD ((k-1)/3 - 1 - j) = _
    simp only [List.mem_cons, List.not_mem_nil, or_false] at hk
    rcases hk with rfl | rfl | rfl | rfl | rfl | rfl | rfl | rfl | rfl | rfl <;> decide

/-- An idle block with steady lines, and the first frame after a reset that left LOAD low, meet the invariant too. -/
theorem idle_inv (ins : List Input) : StateInv (idleAt ins) :=
  ⟨by exact (by decide : Config.default.wf = true), List.Pairwise.nil, List.Pairwise.nil, by simp [idleAt, State.reset], trivial, .inr ⟨rfl, rfl⟩⟩

/-- The first frame after a reset that left LOAD low over the given bits (95 section 2.6). -/
def firstFrame (rx : BitVec 16) : State := { State.powerUp Config.default rx with seq := .run 0x2001F7 0 0 }

theorem firstFrame_inv (rx : BitVec 16) : StateInv (firstFrame rx) ∧ framed (firstFrame rx) := by
  refine ⟨⟨by exact (by decide : Config.default.wf = true), List.Pairwise.nil, List.Pairwise.nil, by simp [firstFrame], ⟨.wrreg 0x01 0xF7, rfl, by show 0 < 1; omega, by omega⟩, ?_⟩, ?_⟩
  · intro F hF
    constructor <;> intros <;> first | omega | exact .inl rfl
  · intro cw f k F hq hF j hj
    cases hq
    omega

/-- A next state with the property, from the test that there is one. -/
theorem next_of {o : Host.Outcome State Fault Refusal} {p : State → Bool} (h : nextIs o p = true) :
    ∃ t, o = .next t ∧ p t = true := by
  cases o with
  | next t => exact ⟨t, rfl, h⟩
  | fault r => cases h
  | refused r => cases h

theorem witness_DecodeInvertsEncode : RegMap.default.wf = true := by decide

theorem witness_EncodeInvertsDecode :
    decode RegMap.default (.cmd 0x6101FF) = .ok (.dispch 0x01 0xFF true) ∧
    decode RegMap.default (.frame 0x0FFF) = .ok (.frameDisplayTest 0xFF) := ⟨rfl, rfl⟩

theorem witness_AtMostOneRowMatches :
    (0x600000#24, 0xFE0000#24) ∈ opcodeRows ∧ rowMatches 0x61FFFF (0x600000, 0xFE0000) = true :=
  ⟨by simp [opcodeRows], by simp [rowMatches]⟩

theorem witness_TextReadsBack :
    Instr.toAsm (.dispch 255 0xFF true) = some ⟨"DISPCH", [.num 255, .num 255, .num 1]⟩ ∧
    (commandWord RegMap.default .testoff).isSome = true ∧ (Char.ofNat 127).toNat < 128 ∧ 128 ≤ (Char.ofNat 128).toNat := by
  decide

theorem witness_DotFlagBecomesOneBit :
    (0x80 : Byte) = 0x80 ∧ (0x00 : Byte) = 0x00 ∧
    [0x01, 0x7F, 0x81, 0xFF].all (fun flag : Byte => flag != 0x80 && flag != 0x00) = true := by decide

theorem witness_AbsentCharacterIsBlank :
    (∀ e ∈ Config.default.rom ++ Config.default.romExt, e.1 ≠ 0x47) ∧
    (∀ e ∈ Config.default.rom ++ Config.default.romExt, e.1 ≠ normalise 0x67) := by
  simp [Config.default, romDefault, normalise, isLower]

theorem witness_LookupIgnoresCase :
    (0x61 ≤ (0x61 : Byte).toNat ∧ (0x61 : Byte).toNat ≤ 0x7A) ∧ (0x61 ≤ (0x7A : Byte).toNat ∧ (0x7A : Byte).toNat ≤ 0x7A) ∧
    Config.default.wf = true := by decide

theorem witness_EveryRomEntryIsReadAtItsKey :
    Config.default.wf = true ∧ (0x41, 0x77) ∈ Config.default.rom ∧
    Config.wf { Config.default with romExt := [(0x47, 0x5E)] } = true := by decide

theorem witness_PresentedCommandIsExecuted :
    (idleAt [.command 0x2001F7]).seq = .idle ∧ (idleAt [.command 0x2001F7]).inputs = [.command 0x2001F7] ∧
    decodeCommand 0x2001F7 = .ok (.wrreg 0x01 0xF7) := ⟨rfl, rfl, rfl⟩

theorem witness_LatchedFrameIsExecuted :
    blockMoves (sending 50 high []).inputs = true ∧ (sending 50 high []).seq = .run 0x2001F7 0 50 ∧
    eventAt (sending 50 high []).cfg 0x2001F7 0 50 = some (⟨.load, true⟩, 1) ∧ (sending 50 high []).lines.load = false ∧
    decodeFrame (sending 50 high []).cfg.regMap (sending 50 high []).rxShift = .ok (.frameDigit1 0xF7) :=
  ⟨rfl, rfl, rfl, rfl, rfl⟩

theorem witness_WordOfNoRowIsRefused :
    (idleAt [.command 0x620000]).seq = .idle ∧ (idleAt [.command 0x620000]).inputs = [.command 0x620000] ∧
    (∀ row ∈ opcodeRows, rowMatches 0x620000 row = false) ∧ ∀ row ∈ opcodeRows, rowMatches 0xFFFFFF row = false :=
  ⟨rfl, rfl, by simp [opcodeRows, rowMatches], by simp [opcodeRows, rowMatches]⟩

theorem witness_IdleBlockWaits :
    (idleAt []).seq = .idle ∧ (idleAt []).inputs = [] ∧ (idleAt [.quiet]).inputs = [.quiet] := ⟨rfl, rfl, rfl⟩

theorem witness_BusyBlockHoldsTheWordAtThePort :
    (sending 0 high [.command 0x500000]).seq = .run 0x2001F7 0 0 ∧
    (sending 0 high [.command 0x500000]).inputs = [.command 0x500000] ∧
    (∃ t, step (sending 0 high [.command 0x500000]) = .next t ∧ true = true) ∧ decodeCommand 0x500000 = .ok .clrall :=
  ⟨rfl, rfl, next_of (p := fun _ => true) (by decide), rfl⟩

/-- Event 0, event 50 of an only frame, event 50 of a first frame of thirteen. -/
theorem witness_StepEmitsThePositionsEvent :
    blockMoves (sending 0 high []).inputs = true ∧ (sending 0 high []).seq = .run 0x2001F7 0 0 ∧
    (sending 50 high []).seq = .run 0x2001F7 0 50 ∧ decodeCommand 0x2001F7 = .ok (.wrreg 0x01 0xF7) ∧
    (commandFrames Config.default (.wrreg 0x01 0xF7))[0]? = some (0x01, 0xF7) ∧ decodeCommand 0x300000 = .ok .init ∧
    (commandFrames Config.default .init)[0]? = some (0x0B, 0x07) ∧
    (commandFrames Config.default .init)[12]? = some (0x0A, 0x0F) := ⟨rfl, rfl, rfl, rfl, rfl, rfl, rfl, rfl⟩

theorem witness_OneLineEventMovesOneLine :
    blockMoves (sending 22 high []).inputs = true ∧
    ∃ t, step (sending 22 high []) = .next t ∧ (t.lines != (sending 22 high []).lines) = true :=
  ⟨rfl, next_of (by decide)⟩

/-- A rise of CLOCK, and a step without one. -/
theorem witness_ReceiverShiftsOnClockRise :
    blockMoves (sending 48 high []).inputs = true ∧ (sending 48 high []).lines.clock = false ∧
    (∃ t, step (sending 48 high []) = .next t ∧ t.lines.clock = true) ∧
    ∃ t, step (sending 49 high []) = .next t ∧ ((sending 49 high []).lines.clock && t.lines.clock) = true :=
  ⟨rfl, rfl, next_of (by decide), next_of (by decide)⟩

/-- A rise of LOAD over a recognised address and over an unrecognised one, and a fall of LOAD. -/
theorem witness_ReceiverLatchesOnLoadRise :
    (blockMoves (sending 50 high []).inputs = true ∧ (sending 50 high []).lines.load = false ∧
      (∃ t, step (sending 50 high []) = .next t ∧ t.lines.load = true) ∧
      RegMap.default.addr .digit1 = (sending 50 high []).rxShift.extractLsb' 8 8) ∧
    (blockMoves (placeFrame 0x0D07 State.reset).inputs = true ∧ (placeFrame 0x0D07 State.reset).lines.load = false ∧
      (∃ t, step (placeFrame 0x0D07 State.reset) = .next t ∧ t.lines.load = true) ∧
      ∀ r, RegMap.default.addr r ≠ (placeFrame 0x0D07 State.reset).rxShift.extractLsb' 8 8) ∧
    ∃ t, step (sending 49 high []) = .next t ∧ (!t.lines.load) = true :=
  ⟨⟨rfl, rfl, next_of (by decide), rfl⟩, ⟨rfl, rfl, next_of (by decide), fun r => by cases r <;> decide⟩,
    next_of (by decide)⟩

theorem witness_RepeatedLevelChangesNothing :
    blockMoves (sending 0 high []).inputs = true ∧ (sending 0 high []).seq = .run 0x2001F7 0 0 ∧
    eventAt (sending 0 high []).cfg 0x2001F7 0 0 = some (⟨.load, true⟩, 1) ∧ (sending 0 high []).lines.get .load = true :=
  ⟨rfl, rfl, rfl, rfl⟩

theorem witness_ConfigurationIsConstant :
    (∃ t, step (sending 50 high []) = .next t ∧ true = true) ∧
    ∃ t, step (sending 30 high [.devicePowerUp]) = .next t ∧ true = true :=
  ⟨next_of (p := fun _ => true) (by decide), next_of (p := fun _ => true) (by decide)⟩

theorem witness_StepKeepsInvariant :
    StateInv (sending 48 high []) ∧ ∃ t, step (sending 48 high []) = .next t ∧ true = true :=
  ⟨(sending_inv 48 (by decide) high (.inl rfl) []).1, next_of (p := fun _ => true) (by decide)⟩

theorem witness_PowerUpMeetsInvariant :
    Config.default.wf = true ∧ Config.wf { Config.default with resetLines := ⟨true, true, true⟩ } = true := by decide

theorem witness_StepKeepsFraming :
    StateInv (sending 48 high []) ∧ framed (sending 48 high []) ∧
    (sending 48 high []).inputs.head? ≠ some .devicePowerUp ∧ ∃ t, step (sending 48 high []) = .next t ∧ true = true :=
  ⟨(sending_inv 48 (by decide) high (.inl rfl) []).1, (sending_inv 48 (by decide) high (.inl rfl) []).2, by decide,
    next_of (p := fun _ => true) (by decide)⟩

theorem witness_StepKeepsMemoryCanonical :
    Memory.wf (sending 50 high []).ds ∧ Memory.wf (sending 50 high []).written ∧ ∃ t, step (sending 50 high []) = .next t ∧ (t.ds != []) = true :=
  ⟨List.Pairwise.nil, List.Pairwise.nil, next_of (by decide)⟩

theorem witness_StepAnswersOrRefuses : StateInv (idleAt [.command 0x620000]) ∧ StateInv (sending 50 high []) :=
  ⟨idle_inv _, (sending_inv 50 (by decide) high (.inl rfl) []).1⟩

/-- The frame just sent, and the spurious one of a first frame. -/
theorem witness_OnlyTheSentFrameIsLatched :
    (StateInv (sending 50 high []) ∧ framed (sending 50 high []) ∧ blockMoves (sending 50 high []).inputs = true ∧
      ∃ t, step (sending 50 high []) = .next t ∧ (t.frameTrace != (sending 50 high []).frameTrace) = true) ∧
    StateInv (firstFrame 0xBEEF) ∧ framed (firstFrame 0xBEEF) ∧ blockMoves (firstFrame 0xBEEF).inputs = true ∧
      ∃ t, step (firstFrame 0xBEEF) = .next t ∧ (t.frameTrace != (firstFrame 0xBEEF).frameTrace) = true :=
  ⟨⟨(sending_inv 50 (by decide) high (.inl rfl) []).1, (sending_inv 50 (by decide) high (.inl rfl) []).2, rfl,
    next_of (by decide)⟩, (firstFrame_inv _).1, (firstFrame_inv _).2, rfl, next_of (by decide)⟩

/-- CLOCK moves, and DATA moves. -/
theorem witness_ClockAndDataMoveOnlyWhileLoadIsHigh :
    (StateInv (sending 48 high []) ∧ blockMoves (sending 48 high []).inputs = true ∧
      ∃ t, step (sending 48 high []) = .next t ∧ (t.lines.clock != (sending 48 high []).lines.clock) = true) ∧
    StateInv (sending 22 high []) ∧
      ∃ t, step (sending 22 high []) = .next t ∧ (t.lines.data != (sending 22 high []).lines.data) = true :=
  ⟨⟨(sending_inv 48 (by decide) high (.inl rfl) []).1, rfl, next_of (by decide)⟩,
    (sending_inv 22 (by decide) high (.inl rfl) []).1, next_of (by decide)⟩

/-- The rises of j = 0, 7, 8 and 15. -/
theorem witness_AddressThenDataMostSignificantBitFirst :
    ∀ k ∈ [3, 24, 27, 48], StateInv (sending k high []) ∧ blockMoves (sending k high []).inputs = true ∧
      (sending k high []).lines.clock = false ∧ ∃ t, step (sending k high []) = .next t ∧ t.lines.clock = true := by
  intro k hk
  simp only [List.mem_cons, List.not_mem_nil, or_false] at hk
  rcases hk with rfl | rfl | rfl | rfl <;>
    exact ⟨(sending_inv _ (by decide) high (.inl rfl) []).1, rfl, rfl, next_of (by decide)⟩

theorem witness_LookupEmitsThePattern : (idleAt []).seq = .idle := rfl

/-- A recognised address and an unrecognised one. -/
theorem witness_WrregSendsItsFrame :
    (idleAt [.command 0x500000]).seq = .idle ∧ undisturbed (idleAt [.command 0x500000]).inputs = true ∧
    (idleAt []).cfg.regMap.addr .displayTest = 0x0F ∧ ∀ r, (idleAt []).cfg.regMap.addr r ≠ 0x10 :=
  ⟨rfl, rfl, rfl, fun r => by cases r <;> decide⟩

theorem witness_SetbrtSendsTheLowNibble : (idleAt [.quiet]).seq = .idle ∧ undisturbed (idleAt [.quiet]).inputs = true := by
  decide

theorem witness_DispchSendsThePatternToThePosition :
    (idleAt []).seq = .idle ∧ undisturbed (idleAt []).inputs = true ∧ (idleAt []).cfg.regMap.addr .digit1 = 1 ∧
    (idleAt []).cfg.regMap.addr .digit8 = 8 := by decide

theorem witness_DispchIgnoresCase :
    (idleAt []).seq = .idle ∧ undisturbed (idleAt []).inputs = true ∧ 0x61 ≤ (0x61 : Byte).toNat ∧
    (0x7A : Byte).toNat ≤ 0x7A := by decide

theorem witness_AuxdotSendsTheFlagsShifted :
    (idleAt []).seq = .idle ∧ undisturbed (idleAt []).inputs = true ∧ (idleAt []).cfg.wf = true := by decide

theorem witness_ShutdownCommandsWriteOneRegister :
    (idleAt []).seq = .idle ∧ undisturbed (idleAt []).inputs = true ∧ (idleAt []).lines.load = true ∧
    0x0B ≠ ((idleAt []).cfg.regMap.addr .shutdown).toNat := by decide

theorem witness_TestCommandsWriteOneRegister :
    (idleAt []).seq = .idle ∧ undisturbed (idleAt []).inputs = true ∧ (idleAt []).lines.load = true ∧
    0x0E ≠ ((idleAt []).cfg.regMap.addr .displayTest).toNat := by decide

theorem witness_ClrallBlanksEveryDigit :
    (idleAt []).seq = .idle ∧ undisturbed (idleAt []).inputs = true ∧
    (∀ r ∈ DevReg.digits, ((idleAt []).cfg.regMap.addr r).toNat ≠ 0x09) ∧
    ∀ r ∈ DevReg.digits, ((idleAt []).cfg.regMap.addr r).toNat ≠ 0x00 := by decide

/-- Even with LOAD low (95 section 3, P5). -/
theorem witness_InitGivesTheKnownState :
    State.reset.seq = .idle ∧ undisturbed State.reset.inputs = true ∧ State.reset.cfg.wf = true ∧
    State.reset.lines.load = false := by decide

theorem witness_FrameRowsWriteTheirRegister :
    (Instr.frameDisplayTest 0xFF, DevReg.displayTest) ∈
      [(Instr.frameDigit1 0xFF, DevReg.digit1), (.frameDisplayTest 0xFF, .displayTest)] := by decide

/-- A host that waits before, between and after its commands; and one that presents none that send a frame. -/
theorem witness_CommandsRunInOrderToCompletion :
    State.reset.seq = .idle ∧ undisturbed [.quiet, .command 0x100041, .quiet, .command 0x300000, .command 0x610161, .quiet] = true ∧
    List.filter (· != Input.quiet) [.quiet, .command 0x100041, .quiet, .command 0x300000, .command 0x610161, .quiet] =
      program State.reset.cfg.regMap [.lookup 0x41, .init, .dispch 1 0x61 true] ∧
    programFrames State.reset.cfg [.lookup 0x41] = [] ∧
    (∀ i ∈ [Instr.lookup 0x41, .init, .dispch 1 0x61 true], (commandWord State.reset.cfg.regMap i).isSome = true) ∧
    (programFrames State.reset.cfg [.lookup 0x41, .init, .dispch 1 0x61 true]).getLast? = some (0x01, 0xF7) := by decide

theorem witness_EveryCommandEqualsItsWrregs :
    (idleAt []).seq = .idle ∧ (commandWord (idleAt []).cfg.regMap .clrall).isSome = true ∧
    commandFrames (idleAt []).cfg .clrall ≠ [] := by decide

theorem witness_CallTraceDependsOnTheWordAlone :
    decodeCommand 0x700007 = .ok (.auxdot 0x07) ∧ (idleAt [.command 0x700007]).cfg = Config.default ∧
    (idleAt [.command 0x700007]).seq = .idle ∧ (idleAt [.command 0x700007]).inputs = .command 0x700007 :: [] ∧
    undisturbed [] = true := ⟨rfl, rfl, rfl, rfl, rfl⟩

theorem witness_LastWriteReplacesTheByte : State.reset.seq = .idle := rfl

theorem witness_EveryCommandEnds :
    StateInv (sending 1 high [.command 0x300000]) ∧ undisturbed (sending 1 high [.command 0x300000]).inputs = true :=
  ⟨(sending_inv 1 (by decide) high (.inl rfl) _).1, rfl⟩

theorem witness_BusyFromAcceptanceToTheLastEvent :
    (idleAt []).seq = .idle ∧ undisturbed (idleAt []).inputs = true ∧ decodeCommand 0x300000 = .ok .init ∧
    commandFrames (idleAt []).cfg .init ≠ [] := ⟨rfl, rfl, rfl, by decide⟩

theorem witness_ResetIdlesTheBlock : (sending 30 high [.reset]).inputs = .reset :: [] := rfl

theorem witness_ResetWhileIdleLeavesTheDevice :
    StateInv (idleAt [.reset]) ∧ (idleAt [.reset]).seq = .idle ∧ (idleAt [.reset]).inputs = .reset :: [] :=
  ⟨idle_inv _, rfl, rfl⟩

/-- `RESET_LINES` with LOAD = 1, and with LOAD = 0. -/
theorem witness_ResetBeforeTheLatch :
    ∀ rl ∈ [high, ⟨false, false, false⟩], StateInv (sending 50 rl [.reset]) ∧ framed (sending 50 rl [.reset]) ∧
      (sending 50 rl [.reset]).seq = .run 0x2001F7 0 50 ∧
      currentFrame (sending 50 rl [.reset]).cfg 0x2001F7 0 = some 0x01F7 ∧
      (sending 50 rl [.reset]).inputs = .reset :: [] ∧ (sending 50 rl [.reset]).cfg.resetLines = rl := by
  intro rl hrl
  have h := sending_inv 50 (by decide) rl (by simpa using hrl) [.reset]
  exact ⟨h.1, h.2, rfl, rfl, rfl, rfl⟩

theorem witness_ResetShiftsOneExtraBit :
    (sending 48 high [.reset]).inputs = .reset :: [] ∧ (sending 48 high [.reset]).lines.clock = false ∧
    (sending 48 high [.reset]).lines.load = true ∧ (sending 48 high [.reset]).cfg.resetLines.clock = true ∧
    (sending 48 high [.reset]).cfg.resetLines.load = true := ⟨rfl, rfl, rfl, rfl, rfl⟩

theorem witness_PowerUpLeavesNoValue :
    Config.default.wf = true ∧ (idleAt [.devicePowerUp]).cfg.wf = true ∧
    (idleAt [.devicePowerUp]).inputs = .devicePowerUp :: [] := by decide

/-- A line event, and a reset in mid-frame. -/
theorem witness_StepKeepsTheWaveform :
    WaveFits (sending 48 high []) ∧ (∃ t, step (sending 48 high []) = .next t ∧ (t.waveform.length == 2) = true) ∧
    WaveFits (sending 30 ⟨false, false, false⟩ [.reset]) ∧
    step (sending 30 ⟨false, false, false⟩ [.reset]) = .next (outsideMove (sending 30 ⟨false, false, false⟩ [.reset])) :=
  ⟨⟨rfl, .singleton _⟩, next_of (by decide), ⟨rfl, .singleton _⟩, rfl⟩

/-- At event k of a frame, over a device as INIT left it. -/
def sendingInitialised (k : Nat) (inputs : List Input) : State :=
  { sending k high inputs with ds := initialised, written := initialised }

theorem initialised_recognised : ∀ c ∈ initialised, ∃ r, (RegMap.default.addr r).toNat = c.1 := by
  intro c hc
  simp only [initialised, List.mem_cons, List.not_mem_nil, or_false] at hc
  rcases hc with rfl | rfl | rfl | rfl | rfl | rfl | rfl | rfl | rfl | rfl | rfl | rfl | rfl
  exacts [⟨.digit1, rfl⟩, ⟨.digit2, rfl⟩, ⟨.digit3, rfl⟩, ⟨.digit4, rfl⟩, ⟨.digit5, rfl⟩, ⟨.digit6, rfl⟩, ⟨.digit7, rfl⟩,
    ⟨.digit8, rfl⟩, ⟨.decodeMode, rfl⟩, ⟨.intensity, rfl⟩, ⟨.scanLimit, rfl⟩, ⟨.shutdown, rfl⟩, ⟨.displayTest, rfl⟩]

/-- The latch of a frame, and a reset just before it. -/
theorem witness_StepKeepsTheDeviceInitialised :
    ∀ ins ∈ [[], [Input.reset]], StateInv (sendingInitialised 50 ins) ∧ framed (sendingInitialised 50 ins) ∧
      uninitialized (sendingInitialised 50 ins) = false ∧
      (sendingInitialised 50 ins).inputs.head? ≠ some .devicePowerUp ∧ ¬spuriousNext (sendingInitialised 50 ins) ∧
      ∃ t, step (sendingInitialised 50 ins) = .next t := by
  intro ins hins
  have h := sending_inv 50 (by decide) high (.inl rfl) ins
  have hm : Memory.wf initialised := by decide
  refine ⟨⟨h.1.configWf, hm, hm, initialised_recognised, h.1.position, h.1.lines⟩, h.2, rfl, ?_, ?_, ?_⟩
  · rcases (by simpa using hins : ins = [] ∨ ins = [.reset]) with rfl | rfl <;> decide
  · rintro ⟨-, -, cw, hq⟩
    cases hq
  · rcases (by simpa using hins : ins = [] ∨ ins = [.reset]) with rfl | rfl <;> exact ⟨_, rfl⟩

/-- The bits 0x0C55, before the block has written the shutdown register. -/
theorem witness_SpuriousLatchLeavesTheDeviceUninitialised :
    StateInv (firstFrame 0x0C55) ∧ spuriousNext (firstFrame 0x0C55) ∧
    (firstFrame 0x0C55).cfg.regMap.addr .shutdown = frameAddr (firstFrame 0x0C55).rxShift ∧
    (firstFrame 0x0C55).written.read (frameAddr (firstFrame 0x0C55).rxShift).toNat ≠
      some (frameData (firstFrame 0x0C55).rxShift) :=
  ⟨(firstFrame_inv _).1, ⟨rfl, rfl, 0x2001F7, rfl⟩, rfl, by decide⟩

end Sys2Proof.Tests
end

section
/-! SUPPORT. What a step of the block does to the lines and to the shift register, said once for a waiting and a sending
block, and the two claims that rest on it (10_state.md R22, R33). -/

namespace Sys2Proof.Machine

/-- A step of the block leaves the lines and the shift register alone, or emits one line event with the receiver's reaction
to it (R22, R24, R33). -/
theorem step_next_lines {s t : State} (hb : blockMoves s.inputs = true) (h : step s = .next t) :
    (t.lines = s.lines ∧ t.rxShift = s.rxShift) ∨
      ∃ e : LineEvent, t.callTrace = s.callTrace ++ [.line e] ∧ t.lines = s.lines.set e.id e.level ∧
        t.rxShift =
          if e.id = .clock ∧ e.rises s.lines = true then shiftIn s.rxShift s.lines.data else s.rxShift := by
  cases hs : s.seq with
  | idle =>
    obtain ⟨hlines, hrx, -⟩ := step_next_idle hb hs h
    exact .inl ⟨hlines, hrx⟩
  | run cw f k =>
    obtain ⟨e, n, -, rfl⟩ := step_next_event hb hs h
    exact .inr ⟨e, by simp, by simp, afterLine_rxShift _ e⟩

/-- The only line an event can move is its own (R22). -/
theorem Lines.eq_of_get_set_ne {l : Lines} {id id' : LineId} {v : Bool} (h : (l.set id v).get id' ≠ l.get id') :
    id' = id :=
  Decidable.by_contra fun hne => h (Lines.get_set_other l id id' v hne)

/-- An event is a rising edge of CLOCK exactly when the levels around it say so (00_scope.md section 6). -/
theorem clock_rises_iff (e : LineEvent) (l : Lines) :
    (e.id = .clock ∧ e.rises l = true) ↔ (l.clock = false ∧ (l.set e.id e.level).clock = true) := by
  obtain ⟨id, v⟩ := e
  cases id with
  | clock => simp [LineEvent.rises, Lines.get, Lines.set, and_comm]
  | data => simp [Lines.set]
  | load => simp [Lines.set]

/-- A step of the block shifts DATA in at a rising edge of CLOCK and keeps the shift register otherwise (R33). -/
theorem step_next_rxShift {s t : State} (hb : blockMoves s.inputs = true) (h : step s = .next t) :
    t.rxShift =
      if s.lines.clock = false ∧ t.lines.clock = true then shiftIn s.rxShift s.lines.data else s.rxShift := by
  obtain ⟨hlines, hrx⟩ | ⟨e, -, hlines, hrx⟩ := step_next_lines hb h
  · simp [hlines, hrx]
  · rw [hrx, hlines]
    simp only [clock_rises_iff]

/-- Settles O19: a waiting block moves no line, a sending one emits one event, which can move its own line only. -/
theorem oneLineEventMovesOneLine : Obligations.OneLineEventMovesOneLine := by
  intro s t hb h
  obtain ⟨hlines, -⟩ | ⟨e, htrace, hlines, -⟩ := step_next_lines hb h
  · exact ⟨fun hne => absurd hlines hne, fun id _ hid _ => absurd (by rw [hlines]) hid⟩
  · refine ⟨fun _ => ⟨e, htrace, hlines⟩, fun id id' hid hid' => ?_⟩
    rw [hlines] at hid hid'
    exact (Lines.eq_of_get_set_ne hid).trans (Lines.eq_of_get_set_ne hid').symm

/-- Settles O20: read bit by bit, the shift at a rising edge of CLOCK is what the statement says of each position. -/
theorem receiverShiftsOnClockRise : Obligations.ReceiverShiftsOnClockRise := by
  intro s t hb h
  have hrx := step_next_rxShift hb h
  refine ⟨fun hlow hhigh => ?_, fun hno => by rw [hrx, if_neg hno]⟩
  rw [hrx, if_pos ⟨hlow, hhigh⟩]
  refine ⟨by rw [shiftIn_bit, if_pos rfl], fun j hj => ?_⟩
  have hj' : j + 1 < 16 := by omega
  rw [shiftIn_bit]
  simp [hj']

end Sys2Proof.Machine
end

section
/-! SUPPORT. The rising edge of CLOCK inside a frame: which event makes it, where it stands, and which bit DATA holds at it;
and the claim on the order on the wire (20_memory.md R43). -/

namespace Sys2Proof.Machine

/-- The bit the j-th CLOCK edge carries: the address byte from its bit 7 down, then the data byte from its bit 7 down
(R43). -/
theorem frameWord_wire_bit (fr : Frame) {j : Nat} (hj : j < 16) :
    (frameWord fr).getLsbD (15 - j) = if j < 8 then fr.1.getLsbD (7 - j) else fr.2.getLsbD (15 - j) := by
  rw [frameWord_bit]
  by_cases h : j < 8
  · have hhigh : ¬ 15 - j < 8 := by omega
    have hidx : 15 - j - 8 = 7 - j := by omega
    rw [if_neg hhigh, if_pos h, hidx]
  · have hlow : 15 - j < 8 := by omega
    rw [if_pos hlow, if_neg h]

/-- CLOCK goes high at the third event of each of the sixteen bits, and at no other event of a frame (R102). -/
theorem frameEvent_clock_high {F : FrameWord} {k : Nat} (h : frameEvent F k = some ⟨.clock, true⟩) :
    ∃ j, j < 16 ∧ k = 3 + 3 * j := by
  have hk := frameEvent_index h
  unfold frameEvent at h
  by_cases h0 : k = 0
  · simp [h0] at h
  by_cases h48 : k ≤ 48
  · obtain hm | hm | hm : (k - 1) % 3 = 0 ∨ (k - 1) % 3 = 1 ∨ (k - 1) % 3 = 2 := by omega
    · simp [h0, h48, hm] at h
    · simp [h0, h48, hm] at h
    · exact ⟨(k - 1) / 3, by omega, by omega⟩
  · obtain rfl | rfl : k = 49 ∨ k = 50 := by omega
    · simp at h
    · simp at h

/-- The event that raises CLOCK sets CLOCK to 1 (00_scope.md section 6). -/
theorem LineEvent.eq_clock_high {e : LineEvent} {l : Lines} (hlow : l.clock = false)
    (hhigh : (l.set e.id e.level).clock = true) : e = ⟨.clock, true⟩ := by
  obtain ⟨id, v⟩ := e
  obtain ⟨rfl, hrises⟩ := (clock_rises_iff ⟨id, v⟩ l).mpr ⟨hlow, hhigh⟩
  simp only [LineEvent.rises, Bool.and_eq_true] at hrises
  rw [hrises.1]

/-- A rising edge of CLOCK that the block makes is the third event of bit j of a frame of a command (R24, R102). -/
theorem step_next_clock_rise {s t : State} (hb : blockMoves s.inputs = true) (h : step s = .next t)
    (hlow : s.lines.clock = false) (hhigh : t.lines.clock = true) :
    ∃ cw i fr f j, s.seq = .run cw f (3 + 3 * j) ∧ j < 16 ∧ decodeCommand cw = .ok i ∧
      (commandFrames s.cfg i)[f]? = some fr ∧ currentFrame s.cfg cw f = some (frameWord fr) ∧
      t.lines = s.lines.set .clock true := by
  cases hs : s.seq with
  | idle =>
    obtain ⟨hlines, -⟩ := step_next_idle hb hs h
    rw [hlines, hlow] at hhigh
    cases hhigh
  | run cw f k =>
    obtain ⟨e, n, he, rfl⟩ := step_next_event hb hs h
    obtain ⟨i, fr, hd, hf, hev, -, -, hcur⟩ := eventAt_inv he
    simp only [afterLine_lines, State.withWritten_lines, State.moveTo_lines] at hhigh ⊢
    obtain rfl := LineEvent.eq_clock_high hlow hhigh
    obtain ⟨j, hj, rfl⟩ := frameEvent_clock_high hev
    exact ⟨cw, i, fr, f, j, rfl, hj, hd, hf, hcur, rfl⟩

/-- Just before the CLOCK edge of bit j, DATA already holds that bit of the frame (R102). -/
theorem StateInv.data_before_clock_rise {s : State} (hinv : StateInv s) {cw : CmdWord} {f j : Nat} {F : FrameWord}
    (hs : s.seq = .run cw f (3 + 3 * j)) (hF : currentFrame s.cfg cw f = some F) (hj : j < 16) :
    s.lines.data = F.getLsbD (15 - j) := by
  have hfit := hinv.lines
  simp only [linesFit, hs] at hfit
  have hdata := (hfit F hF).dataSet (by omega) (by omega) (by omega)
  have hidx : (3 + 3 * j - 1) / 3 = j := by omega
  rwa [hidx] at hdata

/-- Settles O31: the edge is the third event of bit j, DATA holds the bit since the first of the three, and the bit is the
frame's (15 - j)-th. -/
theorem addressThenDataMostSignificantBitFirst : Obligations.AddressThenDataMostSignificantBitFirst := by
  intro s t hinv hb h hlow hhigh
  obtain ⟨cw, i, fr, f, j, hs, hj, hd, hf, hcur, hlines⟩ := step_next_clock_rise hb h hlow hhigh
  have hsteady : s.lines.data = t.lines.data := by rw [hlines]; rfl
  refine ⟨cw, i, fr, f, j, hs, hj, hd, hf, hsteady, ?_, ?_⟩
  · rw [step_next_rxShift hb h, if_pos ⟨hlow, hhigh⟩, shiftIn_bit, if_pos rfl, hsteady]
  · rw [← hsteady, hinv.data_before_clock_rise hs hcur hj, frameWord_wire_bit fr hj]

end Sys2Proof.Machine
end

section
/-! SUPPORT. The blank pattern: what the character ROM reads where no entry stands, and that it lights nothing; and the claim
on absent characters (40_segment_encoder.md R84, R86). -/

namespace Sys2Proof.Machine

/-- A location that neither the table nor `ROM_EXT` populates is blank (R84, R87). -/
theorem romRead_of_absent {cfg : Config} {c : Byte} (h : ∀ e ∈ cfg.rom ++ cfg.romExt, e.1 ≠ c) :
    romRead cfg c = 0x00 := by
  have hnone : (cfg.rom ++ cfg.romExt).lookup c = none :=
    List.lookup_eq_none_iff.mpr fun e he => bne_iff_ne.mpr (h e he).symm
  rw [romRead, hnone, Option.getD_none]

/-- The blank pattern lights no segment (R84, R86). -/
@[simp] theorem lit_blank (seg : Segment) : lit 0x00 seg = false := BitVec.getLsbD_zero

/-- Settles O9: LOOKUP reads the table at the normalised character, so both absences are one fact about the table; the
default table's entry at the space is itself the blank pattern. -/
theorem absentCharacterIsBlank : Obligations.AbsentCharacterIsBlank :=
  ⟨fun _ _ => romRead_of_absent, fun _ _ => romRead_of_absent, lit_blank, rfl⟩

end Sys2Proof.Machine
end

section
/-! SUPPORT. A presented command from the port to its last event: the events it emits are `commandEvents`, a function of the
configuration and the command; and the claim that the call trace depends on nothing else (41_protocol_transmitter.md R109). -/

namespace Sys2Proof.Machine

/-- A command that sends frames emits the events of its frames and nothing else (R101). -/
theorem commandEvents_of_frames {cfg : Config} {i : Instr} (h : 0 < (commandFrames cfg i).length) :
    commandEvents cfg i = (commandFrames cfg i).flatMap fun fr => (sendFrame (frameWord fr)).map .line := by
  cases i with
  | lookup c => simp [commandFrames] at h
  | _ => rfl

/-- An idle block takes the word at the port and executes it (10_state.md R24). -/
theorem step_presented {s : State} {cw : CmdWord} {i : Instr} {rest : List Input} (hs : s.seq = .idle)
    (hin : s.inputs = .command cw :: rest) (hd : decodeCommand cw = .ok i) :
    step s = exec i (s.moveTo .idle rest) := by
  have hm : nextMove s = .run i (s.moveTo s.seq rest) := by
    simp [nextMove, hs, hin, blockMoves, idleMove, hd, State.moveTo]
  rw [step, hm, hs]

/-- A presented command runs to its end and its events join the call trace: LOOKUP's result in the one step, every other
command's line events in the 51 steps of each frame after its acceptance (R24, R80, R101). -/
theorem run_presented {s : State} {cw : CmdWord} {i : Instr} {rest : List Input} (hs : s.seq = .idle)
    (hin : s.inputs = .command cw :: rest) (hu : undisturbed rest = true) (hd : decodeCommand cw = .ok i) :
    ∃ t, run (1 + 51 * (commandFrames s.cfg i).length) s = .next t ∧ t.seq = .idle ∧
      t.callTrace = s.callTrace ++ commandEvents s.cfg i := by
  have hstep := step_presented hs hin hd
  obtain ⟨cw', ⟨hd', hpos⟩, hexec⟩ | ⟨c, rfl, hexec⟩ := exec_command_cases hd (s.moveTo .idle rest)
  · have hacc : run 1 s = .next ((s.moveTo .idle rest).moveTo (.run cw' 0 0) rest) := by
      rw [run_succ 0 s _ (hstep.trans hexec), accept_idle _ _ rfl, run_zero]
      rfl
    obtain ⟨fr, hlast⟩ := Option.isSome_iff_exists.mp (List.getLast?_isSome.mpr (List.ne_nil_of_length_pos hpos))
    obtain ⟨t, hrun, hsent⟩ := run_command (s.moveTo .idle rest) hu hd' hlast
    refine ⟨t, (run_add _ _ s _ hacc).trans hrun, hsent.seq, ?_⟩
    rw [hsent.callTrace, ← commandEvents_of_frames hpos]
    rfl
  · exact ⟨emitResult (lookup s.cfg c) (s.moveTo .idle rest), run_succ 0 s _ (hstep.trans hexec), rfl, rfl⟩

/-- Settles O49: the one list is the command's events under the configuration. -/
theorem callTraceDependsOnTheWordAlone : Obligations.CallTraceDependsOnTheWordAlone := by
  intro c cw i hd
  refine ⟨commandEvents c i, fun s rest hcfg hs hin hu => ?_⟩
  subst hcfg
  exact run_presented hs hin hu hd

end Sys2Proof.Machine
end

section
/-! SUPPORT. The configuration through a step, whoever takes it (70_reset_and_hazards.md R162). -/

namespace Sys2Proof.Machine

/-- A step of the outside keeps the configuration: "reset does not touch them" (R162). -/
@[simp] theorem outsideMove_cfg {s : State} (hb : blockMoves s.inputs = false) : (outsideMove s).cfg = s.cfg := by
  obtain ⟨rest, -, hreset⟩ | ⟨rest, -, hpower⟩ := outsideMove_cases hb
  · simp [hreset]
  · simp [hpower]

/-- No step changes the configuration: not the outside's, not a waiting block's, not a sending block's (R162). -/
theorem step_next_cfg {s t : State} (h : step s = .next t) : t.cfg = s.cfg := by
  cases hb : blockMoves s.inputs with
  | false =>
    rw [step_outside hb] at h
    cases h
    exact outsideMove_cfg hb
  | true =>
    cases hs : s.seq with
    | idle =>
      obtain ⟨-, -, -, -, hcfg, -⟩ := step_next_idle hb hs h
      exact hcfg
    | run cw f k =>
      obtain ⟨e, n, -, rfl⟩ := step_next_event hb hs h
      simp

/-- Settles O23: the one fact about a step, for all of them. -/
theorem configurationIsConstant : Obligations.ConfigurationIsConstant := fun _ _ => step_next_cfg

end Sys2Proof.Machine
end

section
/-! SUPPORT. How long a command still runs from a position inside it (70_reset_and_hazards.md R178). -/

namespace Sys2Proof.Machine

/-- INIT has the most frames, thirteen (42_display_control.md R133). -/
theorem commandFrames_length_le (cfg : Config) (i : Instr) : (commandFrames cfg i).length ≤ 13 := by
  cases i with
  | init => exact Nat.le_refl 13
  | clrall => exact (by decide : 8 ≤ 13)
  | _ => simp [commandFrames, framesWrreg, framesSetbrt, framesDispch, framesAuxdot, framesShdnon, framesShdnoff,
      framesTeston, framesTestoff]

/-- At every position of a command the block has a step, and it moves on to the next position (10_state.md R24). -/
theorem step_position {s : State} {cw : CmdWord} {i : Instr} {f k : Nat} (hb : blockMoves s.inputs = true)
    (hs : s.seq = .run cw f k) (hd : decodeCommand cw = .ok i) (hf : f < (commandFrames s.cfg i).length) (hk : k ≤ 50) :
    ∃ t, step s = .next t ∧ t.cfg = s.cfg ∧ t.inputs = tick s.inputs ∧
      t.seq = nextSeq cw (commandFrames s.cfg i).length f k := by
  have hfr := List.getElem?_eq_getElem hf
  obtain ⟨e, he⟩ := frameEvent_isSome (frameWord (commandFrames s.cfg i)[f]) hk
  exact ⟨_, step_event hb hs (eventAt_eq hd hfr he), by simp, by simp, by simp⟩

/-- A command ends after exactly the events it has left: n + 1 from event k of frame f, where its frames have 51 each
(R178, 41_protocol_transmitter.md R101). -/
theorem run_events_left {cw : CmdWord} {i : Instr} (hd : decodeCommand cw = .ok i) (n : Nat) {f k : Nat} {s : State}
    (hu : undisturbed s.inputs = true) (hs : s.seq = .run cw f k) (hk : k ≤ 50)
    (hn : 51 * f + k + (n + 1) = 51 * (commandFrames s.cfg i).length) :
    ∃ t, run (n + 1) s = .next t ∧ t.seq = .idle := by
  induction n generalizing f k s with
  | zero =>
    obtain ⟨t, hstep, -, -, hseq⟩ := step_position (undisturbed_blockMoves hu) hs hd (by omega) hk
    refine ⟨t, run_succ 0 s t hstep, ?_⟩
    rw [hseq, nextSeq, if_neg (by omega), if_neg (by omega)]
  | succ n ih =>
    obtain ⟨t, hstep, hcfg, hin, hseq⟩ := step_position (undisturbed_blockMoves hu) hs hd (by omega) hk
    have hut : undisturbed t.inputs = true := hin ▸ undisturbed_tick hu
    rw [run_succ (n + 1) s t hstep]
    rw [nextSeq] at hseq
    by_cases hlast : k < 50
    · rw [if_pos hlast] at hseq
      exact ih hut hseq (by omega) (by rw [hcfg]; omega)
    · rw [if_neg hlast, if_pos (by omega)] at hseq
      exact ih hut hseq (by omega) (by rw [hcfg]; omega)

/-- Settles O51: an idle block needs no step, a sending one has at most the 13 · 51 = 663 events of the longest command
left. -/
theorem everyCommandEnds : Obligations.EveryCommandEnds := by
  intro s hinv hu
  cases hs : s.seq with
  | idle => exact ⟨0, s, by omega, run_zero s, hs⟩
  | run cw f k =>
    have hpos := hinv.position
    rw [hs] at hpos
    obtain ⟨i, hd, hf, hk⟩ := hpos
    have hlen := commandFrames_length_le s.cfg i
    obtain ⟨n, hn⟩ : ∃ n, 51 * f + k + (n + 1) = 51 * (commandFrames s.cfg i).length :=
      ⟨51 * (commandFrames s.cfg i).length - (51 * f + k) - 1, by omega⟩
    obtain ⟨t, hrun, hidle⟩ := run_events_left hd n hu hs hk hn
    exact ⟨n + 1, t, by omega, hrun, hidle⟩

end Sys2Proof.Machine
end

section
/-! SUPPORT. The two formats both ways: what an instruction's word decodes to, and what a decoded word was the word of; and
the two claims that say so of every instruction and of every word (30_encoding.md R62, R63, R71). -/

namespace Sys2Proof

/-- An address has a register exactly when some register has that address, whatever the map (R30). -/
theorem RegMap.find_isSome_iff {m : RegMap} {a : Byte} : (m.find a).isSome = true ↔ ∃ r, m.addr r = a := by
  cases h : m.find a with
  | some r => simpa using ⟨r, RegMap.find_addr h⟩
  | none => simpa using RegMap.find_none h

/-- The word of a register's row is the frame of its address (R71). -/
@[simp] theorem encode_frameOf (m : RegMap) (r : DevReg) (d : Byte) :
    encode m (Instr.frameOf r d) = .frame (frameWord (m.addr r, d)) := by
  cases r <;> rfl

/-- A frame with a register's address decodes to the register's row (R71). -/
theorem decodeFrame_addr {m : RegMap} (hm : m.wf = true) (r : DevReg) (d : Byte) :
    decodeFrame m (frameWord (m.addr r, d)) = .ok (Instr.frameOf r d) := by
  simp [decodeFrame, RegMap.find_of_addr hm]

/-- A frame with the address of `REG_NOOP` decodes to the row of FRAME.NOOP (R71, R30). -/
theorem decodeFrame_noop {m : RegMap} (hm : m.wf = true) (d : Byte) :
    decodeFrame m (frameWord (regNoop, d)) = .ok (.frameNoop d) := by
  simp [decodeFrame, RegMap.find_noop hm]

/-- A command's word decodes to the command; no map has a say in it (R62). -/
theorem decodeCommand_encode {m : RegMap} {i : Instr} {w : CmdWord} (h : encode m i = .cmd w) :
    decodeCommand w = .ok i := by
  cases i <;> cases h
  all_goals exact decodeCommand_cmdWord _ _ _ _

/-- A frame row's word decodes to the row under an admissible map (R71). -/
theorem decodeFrame_encode {m : RegMap} (hm : m.wf = true) {i : Instr} {w : FrameWord} (h : encode m i = .frame w) :
    decodeFrame m w = .ok i := by
  cases i <;> cases h
  case frameNoop.refl d => exact decodeFrame_noop hm d
  all_goals exact decodeFrame_addr hm _ _

/-- Settles O1: a word keeps its format, and in each format the decoder undoes the encoder. -/
theorem decodeInvertsEncode : Obligations.DecodeInvertsEncode := by
  intro m i hm
  cases h : encode m i with
  | cmd w => exact decodeCommand_encode h
  | frame w => exact decodeFrame_encode hm h

/-- The fields of a decoded command word are those the command is encoded with: the opcode picks the command, and every field
it does not use is zero (R62, R63). -/
theorem CmdFields.encode_of_decode (m : RegMap) {f : CmdFields} {i : Instr} (h : f.decode = .ok i) :
    encode m i = .cmd f.toWord := by
  obtain ⟨op, rsv, dp, a, b⟩ := f
  unfold CmdFields.decode at h
  split at h
  case h_12 => cases h
  all_goals
    rename_i hop
    obtain ⟨hrsv, hdp, ha, hb, rfl⟩ := (CmdFields.unused_eq_ok _ _ _ _ _ _).mp h
    have hval := congrArg (BitVec.ofNat 4) hop
    simp only [BitVec.ofNat_toNat, BitVec.setWidth_eq, reduceCtorEq, forall_const, false_imp_iff] at hval hrsv hdp ha hb
    subst_vars
    rfl

/-- The row a frame decodes to has the frame as its word, under every map (R71). -/
theorem encode_of_decodeFrame {m : RegMap} {w : FrameWord} {i : Instr} (h : decodeFrame m w = .ok i) :
    encode m i = .frame w := by
  unfold decodeFrame at h
  cases hf : m.find (frameAddr w) with
  | some r =>
    simp only [hf, Except.ok.injEq] at h
    rw [← h, encode_frameOf, RegMap.find_addr hf, frameWord_bytes]
  | none =>
    simp only [hf] at h
    split at h
    · rename_i ha
      cases h
      rw [encode, ← ha, frameWord_bytes]
    · cases h

/-- Settles O2: a command word is put together again from its fields, a frame from its two bytes. -/
theorem encodeInvertsDecode : Obligations.EncodeInvertsDecode := by
  intro m w i h
  cases w with
  | cmd w => rw [CmdFields.encode_of_decode m h, CmdFields.toWord_ofWord]
  | frame w => exact encode_of_decodeFrame h

end Sys2Proof
end

section
/-! SUPPORT. The rows of the opcode map by field: a row fixes the opcode and says which of `DP`, `A` and `B` its command uses;
matching it, decoding and being well formed are then one condition on the fields; and the three claims on the rows
(30_encoding.md R62, R63, R64). -/

namespace Sys2Proof

/-- What a row of the opcode map says: the opcode, and which of the fields `DP`, `A` and `B` its command uses (R62, R63). -/
structure RowUse where
  op : BitVec 4
  usesDp : Bool
  usesA : Bool
  usesB : Bool

/-- The eleven rows in the order of `opcodeRows` (R62). -/
def rowUses : List RowUse :=
  [⟨0x1, false, false, true⟩, ⟨0x2, false, true, true⟩, ⟨0x3, false, false, false⟩, ⟨0x4, false, false, true⟩,
   ⟨0x5, false, false, false⟩, ⟨0x6, true, true, true⟩, ⟨0x7, false, false, true⟩, ⟨0x8, false, false, false⟩,
   ⟨0x9, false, false, false⟩, ⟨0xA, false, false, false⟩, ⟨0xB, false, false, false⟩]

/-- The (match, mask) pair of a row: the mask covers the opcode, the reserved bits and every field that is not used (R62). -/
def RowUse.row (u : RowUse) : CmdWord × CmdWord :=
  (cmdWord u.op false 0 0,
   CmdFields.toWord ⟨0xF, 0x7, !u.usesDp, if u.usesA then 0 else 0xFF, if u.usesB then 0 else 0xFF⟩)

/-- The fields are those of the row: its opcode, and zero in every field it does not use (R63). -/
def CmdFields.fits (f : CmdFields) (u : RowUse) : Prop :=
  f.op = u.op ∧ f.rsv = 0 ∧ (u.usesDp = false → f.dp = false) ∧ (u.usesA = false → f.a = 0) ∧ (u.usesB = false → f.b = 0)

theorem opcodeRows_eq : opcodeRows = rowUses.map RowUse.row := by decide

/-- Two command words with the same bits have the same fields. -/
theorem CmdFields.toWord_inj {f g : CmdFields} : f.toWord = g.toWord ↔ f = g :=
  Function.LeftInverse.injective CmdFields.ofWord_toWord |>.eq_iff

/-- A row's mask tests a byte exactly when its command does not use the byte (R62, R63). -/
theorem byte_masked (x : Byte) (used : Bool) :
    x &&& (if used then 0 else 0xFF) = 0 ↔ (used = false → x = 0) := by
  cases used
  · simpa using iff_of_eq (congrArg (· = 0) (BitVec.and_allOnes (x := x)))
  · simp

/-- A word matches a row exactly when its fields are the row's (R62, R63). -/
theorem rowMatches_row (cw : CmdWord) (u : RowUse) :
    rowMatches cw u.row = true ↔ (CmdFields.ofWord cw).fits u := by
  obtain ⟨f, rfl⟩ : ∃ f : CmdFields, cw = f.toWord := ⟨_, (CmdFields.toWord_ofWord cw).symm⟩
  have hop : f.op &&& 0xF = f.op := BitVec.and_allOnes
  have hrsv : f.rsv &&& 0x7 = f.rsv := BitVec.and_allOnes
  simp only [rowMatches, RowUse.row, CmdFields.toWord_and, cmdWord, beq_iff_eq, CmdFields.toWord_inj, CmdFields.mk.injEq,
    hop, hrsv, byte_masked, CmdFields.ofWord_toWord, CmdFields.fits]
  cases u.usesDp <;> simp

/-- Some row matches the word exactly when its fields are some row's. -/
theorem exists_row_iff (cw : CmdWord) :
    (∃ row ∈ opcodeRows, rowMatches cw row = true) ↔ ∃ u ∈ rowUses, (CmdFields.ofWord cw).fits u := by
  simp only [opcodeRows_eq, List.mem_map, exists_exists_and_eq_and, rowMatches_row]

/-- The fields decode exactly when they are some row's: opcode by opcode (R62, R63). -/
theorem CmdFields.decode_ok_iff (f : CmdFields) : (∃ i, f.decode = .ok i) ↔ ∃ u ∈ rowUses, f.fits u := by
  obtain ⟨⟨⟨n, hn⟩⟩, rsv, dp, a, b⟩ := f
  interval_cases n <;> simp [CmdFields.decode, CmdFields.unused_eq_ok, CmdFields.fits, rowUses]

/-- The fields are well formed exactly when they are some row's: opcode by opcode (R63). -/
theorem CmdFields.wf_iff (f : CmdFields) : f.wf = true ↔ ∃ u ∈ rowUses, f.fits u := by
  obtain ⟨⟨⟨n, hn⟩⟩, rsv, dp, a, b⟩ := f
  interval_cases n <;>
    simp [CmdFields.wf, CmdFields.opAssigned, CmdFields.rsvOk, CmdFields.dpOk, CmdFields.aOk, CmdFields.bOk,
      CmdFields.fits, rowUses, and_assoc]

/-- Settles O3: both sides say that the word's fields are some row's. -/
theorem decoderAcceptsExactlyTheRows : Obligations.DecoderAcceptsExactlyTheRows := fun cw =>
  (CmdFields.decode_ok_iff _).trans (exists_row_iff cw).symm

/-- Settles O4: both sides say that the word's fields are some row's. -/
theorem masksSayUnusedFieldsAreZero : Obligations.MasksSayUnusedFieldsAreZero := fun cw =>
  (exists_row_iff cw).trans (CmdFields.wf_iff _).symm

/-- No two rows have one opcode (R62). -/
theorem row_eq_of_op_eq : ∀ u ∈ rowUses, ∀ u' ∈ rowUses, u.op = u'.op → u.row = u'.row := by decide

/-- Settles O5: two rows that match one word have its opcode, and no two rows share one. -/
theorem atMostOneRowMatches : Obligations.AtMostOneRowMatches := by
  intro cw row row' hrow hrow' hm hm'
  rw [opcodeRows_eq] at hrow hrow'
  obtain ⟨u, hu, rfl⟩ := List.mem_map.mp hrow
  obtain ⟨u', hu', rfl⟩ := List.mem_map.mp hrow'
  obtain ⟨hop, -⟩ := (rowMatches_row cw u).mp hm
  obtain ⟨hop', -⟩ := (rowMatches_row cw u').mp hm'
  exact row_eq_of_op_eq u hu u' hu' (hop.symm.trans hop')

/-- Settles O6: the decoder run on each of the ten words. -/
theorem specWordsDecode : Obligations.SpecWordsDecode := by
  unfold Obligations.SpecWordsDecode
  decide

end Sys2Proof
end

section
/-! SUPPORT. The textual form and the API calls of a command (30_encoding.md R69, R72), and the two claims on them. -/

namespace Sys2Proof

/-- A byte written as a number is read back as the byte (R72). -/
@[simp] theorem AsmOperand.byte_num (b : Byte) : (AsmOperand.num b.toNat).byte = some b := by
  simp [AsmOperand.byte, b.isLt]

/-- A character written as a number is read back as the character (R72). -/
@[simp] theorem AsmOperand.char_num (b : Byte) : (AsmOperand.num b.toNat).char = some b := by
  simp [AsmOperand.char, b.isLt]

/-- `dp` written as 0 or 1 is read back as the bit (R72). -/
@[simp] theorem AsmOperand.flag_num (dp : Bool) : (AsmOperand.num dp.toNat).flag = some dp := by
  cases dp <;> rfl

/-- An ASCII character in quotes is read as the number of its code (R72). -/
theorem AsmOperand.char_chr {c : Char} (h : c.toNat < 128) :
    (AsmOperand.chr c).char = (AsmOperand.num c.toNat).char := by
  have h' : c.toNat < 256 := by omega
  simp only [AsmOperand.char, if_pos h, if_pos h']

/-- A character outside ASCII is no operand (R72, 92_eei_decisions.md D12). -/
theorem AsmOperand.char_chr_none {c : Char} (h : 128 ≤ c.toNat) : (AsmOperand.chr c).char = none := by
  simp only [AsmOperand.char, if_neg (Nat.not_lt.mpr h)]

/-- Reading a LOOKUP line is reading its character (R72). -/
theorem assemble_lookup (x : AsmOperand) : assemble ⟨"LOOKUP", [x]⟩ = x.char.map .lookup := rfl

/-- Reading a DISPCH line is reading its three operands (R72). -/
theorem assemble_dispch (p x dp : AsmOperand) :
    assemble ⟨"DISPCH", [p, x, dp]⟩ =
      p.byte.bind fun p => x.char.bind fun c => dp.flag.map fun dp => .dispch p c dp := rfl

/-- A line that `toAsm` writes is read back as the command it was written for (R72). -/
theorem assemble_toAsm {i : Instr} {l : AsmLine} (h : i.toAsm = some l) : assemble l = some i := by
  cases i <;> cases h
  all_goals simp [assemble]

/-- Settles O7: a written line is read back operand by operand; a quoted ASCII character is the number of its code, and one
outside ASCII is no operand, whatever the rest of the line is. -/
theorem textReadsBack : Obligations.TextReadsBack := by
  refine ⟨fun i l => assemble_toAsm, fun m i h => ?_, fun c hc => ⟨?_, fun p dp => ?_⟩, fun c hc => ⟨?_, fun p dp => ?_⟩⟩
  · cases i
    all_goals simp [Machine.commandWord, encode, Instr.toAsm] at h ⊢
  · have hc' : c.toNat < 256 := by omega
    rw [assemble_lookup, AsmOperand.char_chr hc, AsmOperand.char, if_pos hc', Option.map_some]
  · simp only [assemble_dispch, AsmOperand.char_chr hc]
  · rw [assemble_lookup, AsmOperand.char_chr_none hc, Option.map_none]
  · simp [assemble_dispch, AsmOperand.char_chr_none hc]

/-- Settles O8: 0x80 and 0x00 are the two values that `dotFlagToDp` answers for. -/
theorem dotFlagBecomesOneBit : Obligations.DotFlagBecomesOneBit := by
  intro p c flag
  refine ⟨fun h => ?_, fun h => ?_, fun h h' => ?_⟩
  · simp [ApiCall.toInstr, dotFlagToDp, h]
  · simp [ApiCall.toInstr, dotFlagToDp, h]
  · rw [ApiCall.toInstr, dotFlagToDp, if_neg h, if_neg h', Option.map_none]

end Sys2Proof
end

section
/-! SUPPORT. The character ROM read through `norm` (40_segment_encoder.md R81 to R85, R87), and the claims on it. -/

namespace Sys2Proof.Machine

/-- A lowercase letter becomes its uppercase letter (R81). -/
theorem normalise_lower {c : Byte} (h : isLower c = true) : normalise c = c - 0x20 := if_pos h

/-- Every other character stays (R81). -/
theorem normalise_other {c : Byte} (h : isLower c = false) : normalise c = c := by
  simp [normalise, h]

/-- The uppercase letter of a lowercase one is not lowercase (R81). -/
theorem isLower_upper {c : Byte} (h : isLower c = true) : isLower (c - 0x20) = false := by
  simp only [isLower, decide_eq_true_eq, decide_eq_false_iff_not] at h ⊢
  bv_omega

/-- A lowercase letter and its uppercase letter read the same entry (R81, R82). -/
theorem lookup_upper (cfg : Config) {c : Byte} (h : isLower c = true) : lookup cfg c = lookup cfg (c - 0x20) := by
  rw [lookup, lookup, normalise_lower h, normalise_other (isLower_upper h)]

/-- What the first matching entry holds is what is read (R84, R87). -/
theorem romRead_of_lookup {cfg : Config} {c v : Byte} (h : (cfg.rom ++ cfg.romExt).lookup c = some v) :
    romRead cfg c = v := by
  rw [romRead, h, Option.getD_some]

/-- What an admissible configuration says of `AUX_ADDR` and of the two tables (R85, R87, 42_display_control.md R126). -/
theorem Config.wf_parts {cfg : Config} (h : cfg.wf = true) :
    cfg.auxOk = true ∧ cfg.romAOk = true ∧ cfg.romNoLower = true ∧ cfg.romKeysDistinct = true := by
  simp only [Config.wf, Bool.and_eq_true] at h
  obtain ⟨⟨⟨⟨⟨-, haux⟩, hA⟩, -⟩, hlower⟩, hkeys⟩ := h
  exact ⟨haux, hA, hlower, hkeys⟩

/-- An admissible ROM holds 0x77 at 'A', and no `ROM_EXT` shadows it (R85, R87). -/
theorem lookup_A {cfg : Config} (h : cfg.wf = true) : lookup cfg 0x41 = 0x77 := by
  obtain ⟨-, hA, -, -⟩ := Config.wf_parts h
  rw [lookup, normalise_other (by decide)]
  refine romRead_of_lookup ?_
  rw [List.lookup_append, beq_iff_eq.mp hA, Option.some_or]

/-- Settles O10: both letters read the entry of the uppercase one. -/
theorem lookupIgnoresCase : Obligations.LookupIgnoresCase := by
  intro cfg c
  refine ⟨fun hlo hhi => lookup_upper cfg (decide_eq_true ⟨hlo, hhi⟩), fun h => ⟨lookup_A h, ?_⟩⟩
  rw [lookup_upper cfg (by decide)]
  exact lookup_A h

/-- In a table without a repeated key every entry is the first with its key. -/
theorem lookup_of_mem {table : RomTable} {c v : Byte} (hkeys : (table.map Prod.fst).Nodup) (h : (c, v) ∈ table) :
    table.lookup c = some v := by
  obtain ⟨l, l', rfl⟩ := List.append_of_mem h
  refine List.lookup_eq_some_iff.mpr ⟨l, l', rfl, fun e he => bne_iff_ne.mpr fun hce => ?_⟩
  simp only [List.map_append, List.map_cons] at hkeys
  exact List.disjoint_of_nodup_append hkeys (List.mem_map_of_mem he) (hce ▸ List.mem_cons_self)

/-- Settles O11: the entry's key is no lowercase letter, so it is read as it is, and no other entry has the key. -/
theorem everyRomEntryIsReadAtItsKey : Obligations.EveryRomEntryIsReadAtItsKey := by
  intro cfg c v h hmem
  obtain ⟨-, -, hlower, hkeys⟩ := Config.wf_parts h
  have hmem' : (c, v) ∈ cfg.rom ++ cfg.romExt := List.mem_append.mpr hmem
  have hc : isLower c = false := by simpa using List.all_eq_true.mp hlower _ hmem'
  rw [lookup, normalise_other hc]
  exact romRead_of_lookup (lookup_of_mem (of_decide_eq_true hkeys) hmem')

/-- Settles O12: entry by entry for the 18 keys; every other character is absent from the table. -/
theorem defaultRomLightsTheListedSegments : Obligations.DefaultRomLightsTheListedSegments := by
  refine ⟨by decide, fun c hc => romRead_of_absent fun e he hec => hc ?_⟩
  exact (hec ▸ List.mem_map_of_mem he : c ∈ (Config.default.rom ++ Config.default.romExt).map Prod.fst)

end Sys2Proof.Machine
end

section
/-! SUPPORT. The events of a frame by index, said once: which event stands where; the two claims on the frame itself
(41_protocol_transmitter.md R101 to R103). -/

namespace Sys2Proof.Machine

/-- The event of each index: LOAD high first; for bit j DATA, CLOCK low, CLOCK high; then LOAD low and high (R101, R102). -/
theorem frameEvent_cases {F : FrameWord} {k : Nat} {e : LineEvent} (h : frameEvent F k = some e) :
    (k = 0 ∧ e = ⟨.load, true⟩) ∨
      (∃ j, j < 16 ∧ k = 1 + 3 * j ∧ e = ⟨.data, F.getLsbD (15 - j)⟩) ∨
      (∃ j, j < 16 ∧ k = 2 + 3 * j ∧ e = ⟨.clock, false⟩) ∨
      (∃ j, j < 16 ∧ k = 3 + 3 * j ∧ e = ⟨.clock, true⟩) ∨
      (k = 49 ∧ e = ⟨.load, false⟩) ∨ (k = 50 ∧ e = ⟨.load, true⟩) := by
  have hk := frameEvent_index h
  unfold frameEvent at h
  by_cases h0 : k = 0
  · simp only [h0, if_true, Option.some.injEq] at h
    exact .inl ⟨h0, h.symm⟩
  by_cases h48 : k ≤ 48
  · simp only [h0, h48, if_false, if_true] at h
    obtain hm | hm | hm : (k - 1) % 3 = 0 ∨ (k - 1) % 3 = 1 ∨ (k - 1) % 3 = 2 := by omega
    all_goals simp only [hm, Option.some.injEq] at h
    · exact .inr (.inl ⟨(k - 1) / 3, by omega, by omega, h.symm⟩)
    · exact .inr (.inr (.inl ⟨(k - 1) / 3, by omega, by omega, h.symm⟩))
    · exact .inr (.inr (.inr (.inl ⟨(k - 1) / 3, by omega, by omega, h.symm⟩)))
  obtain rfl | rfl : k = 49 ∨ k = 50 := by omega
  · simp at h
    exact .inr (.inr (.inr (.inr (.inl ⟨rfl, h.symm⟩))))
  · simp at h
    exact .inr (.inr (.inr (.inr (.inr ⟨rfl, h.symm⟩))))

/-- LOAD goes high at the first and at the last event of a frame only (R102). -/
theorem frameEvent_load_high {F : FrameWord} {k : Nat} (h : frameEvent F k = some ⟨.load, true⟩) : k = 0 ∨ k = 50 := by
  obtain ⟨hk, -⟩ | ⟨j, -, -, he⟩ | ⟨j, -, -, he⟩ | ⟨j, -, -, he⟩ | ⟨-, he⟩ | ⟨hk, -⟩ := frameEvent_cases h
  · exact .inl hk
  · cases he
  · cases he
  · cases he
  · cases he
  · exact .inr hk

/-- Settles O32: index by index up to 50; past it neither side has an event. -/
theorem sendFrameIsTheEventFunction : Obligations.SendFrameIsTheEventFunction := by
  intro F
  have hlen : (sendFrame F).length = 51 := rfl
  refine ⟨hlen, fun k => ?_⟩
  by_cases hk : k ≤ 50
  · interval_cases k <;> rfl
  · rw [List.getElem?_eq_none (by omega)]
    cases he : frameEvent F k with
    | none => rfl
    | some e => exact absurd (frameEvent_index he) hk

/-- The rising edges of a list of events and of those after it. -/
theorem risesOf_append (id : LineId) (l : Lines) (es es' : List LineEvent) :
    risesOf id l (es ++ es') = risesOf id l es + risesOf id (linesAfter l es) es' := by
  induction es generalizing l with
  | nil => simp [risesOf, linesAfter]
  | cons e es ih => rw [List.cons_append, risesOf, ih, risesOf, Nat.add_assoc]; rfl

/-- The falling edges of a list of events and of those after it. -/
theorem fallsOf_append (id : LineId) (l : Lines) (es es' : List LineEvent) :
    fallsOf id l (es ++ es') = fallsOf id l es + fallsOf id (linesAfter l es) es' := by
  induction es generalizing l with
  | nil => simp [fallsOf, linesAfter]
  | cons e es ih => rw [List.cons_append, fallsOf, ih, fallsOf, Nat.add_assoc]; rfl

/-- The edges of a frame's bits: CLOCK rises once at each bit and falls before it, if it was high; LOAD rests (R102). -/
theorem edges_bits (bs : List Bool) (l : Lines) :
    let es := bs.flatMap fun b => [(⟨.data, b⟩ : LineEvent), ⟨.clock, false⟩, ⟨.clock, true⟩]
    risesOf .clock l es = bs.length ∧ fallsOf .clock l es = (if l.clock then bs.length else bs.length - 1) ∧
      risesOf .load l es = 0 ∧ fallsOf .load l es = 0 := by
  induction bs generalizing l with
  | nil => simp [risesOf, fallsOf]
  | cons b bs ih =>
    obtain ⟨hrise, hfall, hload, hload'⟩ := ih ⟨b, true, l.load⟩
    simp only [List.flatMap_cons, risesOf_append, fallsOf_append, linesAfter_bit, hrise, hfall, hload, hload']
    cases hc : l.clock <;> simp [risesOf, fallsOf, LineEvent.rises, LineEvent.falls, Lines.get, Lines.set, hc, Nat.add_comm]

/-- Settles O33: the sixteen bits give the edges of CLOCK, the three events around them those of LOAD. -/
theorem edgesOfAFrame : Obligations.EdgesOfAFrame := by
  intro F l
  have hne : frameBits F ≠ [] := by simp [frameBits]
  have hlen : (frameBits F).length = 16 := rfl
  obtain ⟨hrise, hfall, hload, hload'⟩ := edges_bits (frameBits F) (l.set .load true)
  refine ⟨?_, ?_, ?_, ?_, linesAfter_sendFrame l F⟩
  all_goals
    rw [sendFrame_eq]
    simp only [List.cons_append, risesOf, fallsOf, risesOf_append, fallsOf_append, linesAfter_bits _ _ hne, hrise, hfall,
      hload, hload', hlen]
    simp [LineEvent.rises, LineEvent.falls, Lines.get, Lines.set]
  · rfl
  · cases l.load <;> rfl

end Sys2Proof.Machine
end

section
/-! SUPPORT. One step of an idle block and of a sending one, field by field, and the claims on single steps (10_state.md R24 to
R26, R34, 41_protocol_transmitter.md R111). -/

namespace Sys2Proof.Machine

/-- A presented word that spells no command is refused, with the decoder's reason (30_encoding.md R64). -/
theorem step_refused {s : State} {cw : CmdWord} {rest : List Input} {why : DecodeError} (hs : s.seq = .idle)
    (hin : s.inputs = .command cw :: rest) (hd : decodeCommand cw = .error why) :
    step s = .refused (.spellsNoCommand why) := by
  simp [step, nextMove, idleMove, hs, hin, blockMoves, hd]

/-- With no command at the port an idle block only lets the wait pass (10_state.md R24, R25). -/
theorem step_waiting {s : State} (hs : s.seq = .idle) (hin : s.inputs.head? = none ∨ s.inputs.head? = some .quiet) :
    step s = .next (s.moveTo .idle (tick s.inputs)) := by
  rcases hi : s.inputs with _ | ⟨_ | _ | _ | _, rest⟩ <;> simp [hi] at hin
  all_goals simp [step, nextMove, idleMove, hs, hi, blockMoves, State.moveTo]

/-- What a step with a next state was, said once: a reset, a power-up of the device, a step of an idle block (of which
`step_next_idle` says the fields), or the event of a position of a command (R24). -/
theorem step_next_cases {s t : State} (h : step s = .next t) :
    (∃ rest, s.inputs = .reset :: rest ∧ t = blockReset ((s.moveTo s.seq rest).withWritten (resetCommit s))) ∨
      (∃ rest, s.inputs = .devicePowerUp :: rest ∧ t = devicePowerUp (s.moveTo s.seq rest)) ∨
      (blockMoves s.inputs = true ∧ s.seq = .idle) ∨
      ∃ cw f k e n, blockMoves s.inputs = true ∧ s.seq = .run cw f k ∧ eventAt s.cfg cw f k = some (e, n) ∧
        t = afterLine ((s.moveTo (nextSeq cw n f k) (tick s.inputs)).withWritten (commit s.cfg cw f k s.written)) e := by
  cases hb : blockMoves s.inputs with
  | false =>
    rw [step_outside hb] at h
    cases h
    obtain ⟨rest, hin, hreset⟩ | ⟨rest, hin, hpower⟩ := outsideMove_cases hb
    · exact .inl ⟨rest, hin, hreset⟩
    · exact .inr (.inl ⟨rest, hin, hpower⟩)
  | true =>
    cases hs : s.seq with
    | idle => exact .inr (.inr (.inl ⟨rfl, rfl⟩))
    | run cw f k =>
      obtain ⟨e, n, he, ht⟩ := step_next_event hb hs h
      exact .inr (.inr (.inr ⟨cw, f, k, e, n, rfl, rfl, he, ht⟩))

/-- Putting a line at the level it has changes no line. -/
theorem Lines.set_eq_self_iff (l : Lines) (id : LineId) (v : Bool) : l.set id v = l ↔ l.get id = v := by
  refine ⟨fun h => ?_, fun h => Lines.eq_of_get fun id' => ?_⟩
  · rw [← h, Lines.get_set_same]
  · by_cases he : id' = id
    · rw [he, Lines.get_set_same, h]
    · exact Lines.get_set_other l id id' v he

/-- One event adds its triple to the waveform exactly when it changes a level (R111). -/
theorem triplesFrom_single (l : Lines) (e : LineEvent) :
    triplesFrom l [e] = if l.set e.id e.level = l then [] else [l.set e.id e.level] := by
  simp only [triplesFrom, Lines.set_eq_self_iff]

/-- Settles O13: the idle block's step on a presented word. -/
theorem presentedCommandIsExecuted : Obligations.PresentedCommandIsExecuted := by
  intro s cw rest i hs hin hd
  rw [step_presented hs hin hd, State.moveTo, ← hs]

/-- Settles O14: at a rise of LOAD the step is the latch of the shift register, which is the execution of its row. -/
theorem latchedFrameIsExecuted : Obligations.LatchedFrameIsExecuted := by
  intro s cw f k n i hb hs he hload hd
  have hrise : loadRises ⟨.load, true⟩
      ((s.moveTo (nextSeq cw n f k) (tick s.inputs)).withWritten (commit s.cfg cw f k s.written)) = true := by
    simp [loadRises, LineEvent.rises, Lines.get, hload]
  rw [step_event hb hs he, afterLine, if_pos hrise, ← exec_latched (i := i) (by simpa using hd)]
  simp [emitLine, State.setLine, State.withWritten, State.moveTo, triplesFrom, Lines.get, Lines.set, hload]

/-- Settles O15: a word of no row does not decode, and a presented word that does not decode is refused. -/
theorem wordOfNoRowIsRefused : Obligations.WordOfNoRowIsRefused := by
  intro s cw rest hs hin hno
  cases hd : decodeCommand cw with
  | ok i =>
    obtain ⟨row, hrow, hm⟩ := (decoderAcceptsExactlyTheRows cw).mp ⟨i, hd⟩
    rw [hno row hrow] at hm
    cases hm
  | error why => exact ⟨why, step_refused hs hin hd⟩

/-- Settles O16: the idle block's step with no word at the port. -/
theorem idleBlockWaits : Obligations.IdleBlockWaits := by
  intro s rest hs
  refine ⟨fun hin => ?_, fun hin => ?_⟩
  · rw [step_waiting hs (by simp [hin]), hin, State.moveTo, ← hs]
    simp [tick, ← hin]
  · rw [step_waiting hs (by simp [hin]), hin, State.moveTo, ← hs, tick]

/-- Settles O17: a sending block only lets waits pass, and a command it is given meets a busy `SEQ`. -/
theorem busyBlockHoldsTheWordAtThePort : Obligations.BusyBlockHoldsTheWordAtThePort := by
  refine ⟨fun s t cw cw' f k rest hs hin h => ?_, fun s cw cw' f k i hs hd => ?_⟩
  · obtain ⟨e, n, -, rfl⟩ := step_next_event (by simp [hin, blockMoves]) hs h
    simp [hin, tick]
  · obtain ⟨w, -, hexec⟩ | ⟨c, -, hexec⟩ := exec_command_cases hd s
    · rw [hexec, accept_busy _ _ _ _ _ hs]
    · simp only [hexec, execLookup, hs]

/-- Settles O18: the position's event by index is that of `SendFrame`'s list, and `afterLine` says the rest. -/
theorem stepEmitsThePositionsEvent : Obligations.StepEmitsThePositionsEvent := by
  intro s cw i fr f k hb hs hd hf hk
  obtain ⟨e, he⟩ := frameEvent_isSome (frameWord fr) hk
  refine ⟨_, e, step_event hb hs (eventAt_eq hd hf he), ?_, by simp, by simp, ?_, by simp [nextSeq], by simp, by simp, by simp⟩
  · obtain ⟨-, hget⟩ := sendFrameIsTheEventFunction (frameWord fr)
    rw [hget, he]
  · simp only [afterLine_waveform, afterLine_lines, State.withWritten_waveform, State.withWritten_lines,
      State.moveTo_waveform, State.moveTo_lines, triplesFrom_single]
    split <;> simp

/-- Settles O22: an event to the level there is rises nothing, so neither the receiver nor the waveform sees it. -/
theorem repeatedLevelChangesNothing : Obligations.RepeatedLevelChangesNothing := by
  intro s cw f k n e hb hs he hlevel
  have hrises : e.rises s.lines = false := by simp [LineEvent.rises, hlevel]
  have hset := (Lines.set_eq_self_iff s.lines e.id e.level).mpr hlevel
  rw [step_event hb hs he]
  simp [afterLine, loadRises, emitLine, State.setLine, State.withWritten, State.moveTo, triplesFrom_single, hrises, hset]

end Sys2Proof.Machine
end

section
/-! SUPPORT. The receiver's latch in a step of the block: it is taken at a rise of LOAD and nowhere else; and the claim that
says so (10_state.md R34). -/

namespace Sys2Proof.Machine

/-- An event is a rising edge of LOAD exactly when the levels around it say so (00_scope.md section 6). -/
theorem loadRises_iff (e : LineEvent) (s : State) :
    loadRises e s = true ↔ s.lines.load = false ∧ (s.lines.set e.id e.level).load = true := by
  obtain ⟨id, v⟩ := e
  cases id with
  | load => simp [loadRises, LineEvent.rises, Lines.get, Lines.set, and_comm]
  | data => simp [loadRises, Lines.set]
  | clock => simp [loadRises, Lines.set]

/-- The event that raises LOAD sets LOAD to 1 (00_scope.md section 6). -/
theorem LineEvent.eq_load_high {e : LineEvent} {l : Lines} (hlow : l.load = false)
    (hhigh : (l.set e.id e.level).load = true) : e = ⟨.load, true⟩ := by
  obtain ⟨id, v⟩ := e
  cases id with
  | load => simpa [Lines.set] using hhigh
  | data => simp [Lines.set, hlow] at hhigh
  | clock => simp [Lines.set, hlow] at hhigh

/-- A latch delivers the frame in the shift register (R34). -/
@[simp] theorem latch_ds (s : State) : (latch s).ds = deliver s.cfg.regMap s.ds [s.rxShift] := by
  rw [latch_eq]

/-- A latch records the frame in the shift register (R34). -/
@[simp] theorem latch_frameTrace (s : State) : (latch s).frameTrace = s.frameTrace ++ [s.rxShift] := by
  rw [latch_eq]

/-- At a rise of LOAD the shift register's frame joins the frame trace (R34). -/
theorem afterLine_frameTrace (s : State) (e : LineEvent) :
    (afterLine s e).frameTrace =
      if s.lines.load = false ∧ (s.lines.set e.id e.level).load = true then s.frameTrace ++ [s.rxShift] else s.frameTrace := by
  simp only [← loadRises_iff]
  unfold afterLine
  split
  · rename_i h
    have hid : e.id ≠ .clock := fun hc => by simp [loadRises, hc] at h
    simp [hid]
  · rfl

/-- At a rise of LOAD `DS` takes the shift register's frame (R34). -/
theorem afterLine_ds (s : State) (e : LineEvent) :
    (afterLine s e).ds =
      if s.lines.load = false ∧ (s.lines.set e.id e.level).load = true then deliver s.cfg.regMap s.ds [s.rxShift] else s.ds := by
  simp only [← loadRises_iff]
  unfold afterLine
  split
  · rename_i h
    have hid : e.id ≠ .clock := fun hc => by simp [loadRises, hc] at h
    simp [hid]
  · rfl

/-- What the delivery of one frame makes of a read (R34). -/
theorem deliver_single_read (m : RegMap) (ds : Memory) (w : FrameWord) (x : Nat) :
    (deliver m ds [w]).read x =
      if (m.find (frameAddr w)).isSome = true ∧ x = (frameAddr w).toNat then some (frameData w) else ds.read x := by
  simpa using deliver_frame_read m ds (frameAddr w, frameData w) x

/-- A frame whose address no register has is delivered without a trace (90_conflicts.md C3). -/
theorem deliver_unrecognised {m : RegMap} {w : FrameWord} (ds : Memory) (h : ∀ r, m.addr r ≠ frameAddr w) :
    deliver m ds [w] = ds := by
  have hnone : ¬(m.find (frameAddr w)).isSome = true := fun hsome =>
    (RegMap.find_isSome_iff.mp hsome).elim h
  simp [deliver, hnone]

/-- A step of the block latches the shift register at a rising edge of LOAD, and only there (R34). -/
theorem step_next_latch {s t : State} (hb : blockMoves s.inputs = true) (h : step s = .next t) :
    (s.lines.load = false → t.lines.load = true →
      t.frameTrace = s.frameTrace ++ [s.rxShift] ∧ t.ds = deliver s.cfg.regMap s.ds [s.rxShift]) ∧
    (¬(s.lines.load = false ∧ t.lines.load = true) → t.frameTrace = s.frameTrace ∧ t.ds = s.ds) := by
  cases hs : s.seq with
  | idle =>
    obtain ⟨hlines, -, hds, htrace, -⟩ := step_next_idle hb hs h
    refine ⟨fun hlow hhigh => ?_, fun _ => ⟨htrace, hds⟩⟩
    rw [hlines, hlow] at hhigh
    cases hhigh
  | run cw f k =>
    obtain ⟨e, n, -, rfl⟩ := step_next_event hb hs h
    rw [afterLine_lines, afterLine_frameTrace, afterLine_ds]
    exact ⟨fun hlow hhigh => ⟨if_pos ⟨hlow, hhigh⟩, if_pos ⟨hlow, hhigh⟩⟩, fun hno => ⟨if_neg hno, if_neg hno⟩⟩

/-- Settles O21: the latch delivers the shift register's frame, and a delivery is read at its own address only. -/
theorem receiverLatchesOnLoadRise : Obligations.ReceiverLatchesOnLoadRise := by
  intro s t hb h
  obtain ⟨hlatch, hkeep⟩ := step_next_latch hb h
  refine ⟨fun hlow hhigh => ?_, hkeep⟩
  obtain ⟨htrace, hds⟩ := hlatch hlow hhigh
  have hrx : t.rxShift = s.rxShift := by
    cases hs : s.seq with
    | idle =>
      obtain ⟨-, hrx, -⟩ := step_next_idle hb hs h
      exact hrx
    | run cw f k =>
      obtain ⟨e, n, -, rfl⟩ := step_next_event hb hs h
      obtain rfl := LineEvent.eq_load_high hlow (by simpa using hhigh)
      simp
  refine ⟨htrace, hrx, fun r hr => ?_, fun hno => by rw [hds, deliver_unrecognised _ hno]⟩
  have hsome : (s.cfg.regMap.find (frameAddr s.rxShift)).isSome = true := RegMap.find_isSome_iff.mpr ⟨r, hr⟩
  rw [hds]
  refine ⟨?_, fun a ha => ?_⟩
  · rw [deliver_single_read, if_pos ⟨hsome, rfl⟩, frameData]
  · rw [deliver_single_read, if_neg (fun hc => ha hc.2)]

end Sys2Proof.Machine
end

section
/-! SUPPORT. What every step keeps of `DS` and of the record of what the block wrote: whatever a write keeps and the empty
space has (10_state.md R34, R35, 20_memory.md R53); the claim on the canonical form. -/

namespace Sys2Proof.Machine

/-- What a write at a register's address keeps, a latch keeps (R34). -/
theorem latch_keeps_ds {P : Memory → Prop} {s : State}
    (hw : ∀ m r d, P m → P (Memory.write m (s.cfg.regMap.addr r).toNat d)) (h : P s.ds) : P (latch s).ds := by
  obtain ⟨r, -, hl⟩ | ⟨-, hl⟩ := latch_cases s
  · rw [hl]
    exact hw _ _ _ h
  · rw [hl]
    exact h

/-- What the empty space has and a write at a register's address keeps, every step keeps of `DS` (R34, R163). -/
theorem step_keeps_ds {P : Memory → Prop} {s t : State} (h0 : P [])
    (hw : ∀ m r d, P m → P (Memory.write m (s.cfg.regMap.addr r).toNat d)) (hstep : step s = .next t) (h : P s.ds) :
    P t.ds := by
  obtain ⟨rest, -, rfl⟩ | ⟨rest, -, rfl⟩ | ⟨hb, hs⟩ | ⟨cw, f, k, e, n, -, -, -, rfl⟩ := step_next_cases hstep
  · refine (blockReset_keeps (fun u => u.cfg = s.cfg ∧ P u.ds) (fun u hu => ?_) (fun u e rx hu => hu) (fun u hu => hu)
      (fun u hu => hu) ((s.moveTo s.seq rest).withWritten (resetCommit s)) ⟨rfl, h⟩).2
    exact ⟨by simp [hu.1], latch_keeps_ds (by rw [hu.1]; exact hw) hu.2⟩
  · exact h0
  · obtain ⟨-, -, hds, -⟩ := step_next_idle hb hs hstep
    rwa [hds]
  · unfold afterLine
    split
    · exact latch_keeps_ds hw h
    · exact h

/-- What the empty record has and a write keeps, every step keeps of the record (20_memory.md R53). -/
theorem step_keeps_written {P : Memory → Prop} {s t : State} (h0 : P []) (hw : ∀ w a v, P w → P (Memory.write w a v))
    (hstep : step s = .next t) (h : P s.written) : P t.written := by
  obtain ⟨rest, -, rfl⟩ | ⟨rest, -, rfl⟩ | ⟨hb, hs⟩ | ⟨cw, f, k, e, n, -, -, -, rfl⟩ := step_next_cases hstep
  · rw [blockReset_written]
    exact resetCommit_keeps P hw s h
  · exact h0
  · obtain ⟨-, -, -, -, -, -, -, hwritten, -⟩ := step_next_idle hb hs hstep
    rwa [hwritten]
  · rw [afterLine_written]
    exact commit_keeps P hw _ _ _ _ _ h

/-- Settles O27: the empty space is canonical, and a write keeps the canonical form. -/
theorem stepKeepsMemoryCanonical : Obligations.StepKeepsMemoryCanonical := fun _ _ hstep =>
  ⟨step_keeps_ds List.Pairwise.nil (fun _ _ _ => Memory.write_wf _ _) hstep,
    step_keeps_written List.Pairwise.nil (fun _ _ _ => Memory.write_wf _ _) hstep⟩

end Sys2Proof.Machine
end

section
/-! SUPPORT. The levels of the lines from one position to the next, and the claim that every step keeps the invariant
(41_protocol_transmitter.md R102, R103, R106, R107). -/

namespace Sys2Proof.Machine

/-- Where the position has an event, the lines fit the frame that event belongs to. -/
theorem StateInv.linesAt {s : State} (hinv : StateInv s) {cw : CmdWord} {f k : Nat} {F : FrameWord}
    (hs : s.seq = .run cw f k) (hF : currentFrame s.cfg cw f = some F) : LinesAt s.cfg F f k s.lines := by
  have hfit := hinv.lines
  simp only [linesFit, hs] at hfit
  exact hfit F hF

/-- In an idle block the lines rest. -/
theorem StateInv.resting_of_idle {s : State} (hinv : StateInv s) (hs : s.seq = .idle) : resting s.cfg s.lines := by
  have hfit := hinv.lines
  simpa only [linesFit, hs] using hfit

/-- Before the first event of any frame the lines rest (R103). -/
theorem LinesAt.resting_at_start {cfg : Config} {F : FrameWord} {f : Nat} {l : Lines} (h : LinesAt cfg F f 0 l) :
    resting cfg l := by
  cases f with
  | zero => exact h.first rfl rfl
  | succ f => exact .inr (h.between rfl (Nat.succ_pos f))

/-- The levels a command starts from (R161, R103). -/
theorem linesAt_start {cfg : Config} {l : Lines} (h : resting cfg l) (F : FrameWord) : LinesAt cfg F 0 0 l := by
  constructor <;> intros
  case first => exact h
  all_goals omega

/-- The levels the next frame of a command starts from (R103). -/
theorem linesAt_next_frame {cfg : Config} {l : Lines} (h : steady l) (F : FrameWord) (f : Nat) :
    LinesAt cfg F (f + 1) 0 l := by
  constructor <;> intros
  case between => exact h
  all_goals omega

/-- Before the last event of a frame CLOCK is high, and the event makes LOAD high too (R103). -/
theorem LinesAt.steady_after_last {cfg : Config} {F : FrameWord} {f : Nat} {l : Lines} (h : LinesAt cfg F f 50 l) :
    steady (l.set .load true) :=
  ⟨h.clockHigh (by omega) (by omega) (by omega), rfl⟩

/-- Inside a frame every event leaves the levels that the next position has (R102, R106, R107). -/
theorem LinesAt.next {cfg : Config} {F : FrameWord} {f k : Nat} {l : Lines} {e : LineEvent} (h : LinesAt cfg F f k l)
    (he : frameEvent F k = some e) (hk : k < 50) : LinesAt cfg F f (k + 1) (l.set e.id e.level) := by
  obtain ⟨rfl, rfl⟩ | ⟨j, hj, rfl, rfl⟩ | ⟨j, hj, rfl, rfl⟩ | ⟨j, hj, rfl, rfl⟩ | ⟨rfl, rfl⟩ | ⟨rfl, -⟩ :=
    frameEvent_cases he
  · constructor <;> intros
    case loadHigh => rfl
    case clockStart =>
      obtain hrest | ⟨hclock, -⟩ := h.resting_at_start
      · rw [hrest]
        cases f with
        | zero => exact .inl ⟨rfl, rfl⟩
        | succ f => exact .inr (hrest ▸ (h.between rfl (Nat.succ_pos f)).1)
      · exact .inr hclock
    all_goals omega
  · have hbit : (1 + 3 * j + 1 - 1) / 3 = j := by omega
    constructor <;> intros
    case loadHigh => exact h.loadHigh (by omega) (by omega)
    case clockStart => exact h.clockStart (by omega) (by omega)
    case clockHigh => exact h.clockHigh (by omega) (by omega) (by omega)
    case dataSet => rw [hbit]; rfl
    all_goals omega
  · have hbit : (2 + 3 * j + 1 - 1) / 3 = (2 + 3 * j - 1) / 3 := by omega
    constructor <;> intros
    case loadHigh => exact h.loadHigh (by omega) (by omega)
    case clockLow => rfl
    case dataSet => rw [hbit]; exact h.dataSet (by omega) (by omega) (by omega)
    all_goals omega
  · constructor <;> intros
    case loadHigh => exact h.loadHigh (by omega) (by omega)
    case clockHigh => rfl
    case dataLast =>
      obtain rfl : j = 15 := by omega
      exact h.dataSet (by omega) (by omega) (by omega)
    all_goals omega
  · constructor <;> intros
    case loadLow => rfl
    case clockHigh => exact h.clockHigh (by omega) (by omega) (by omega)
    case dataLast => exact h.dataLast (by omega)
    all_goals omega
  · omega

end Sys2Proof.Machine
end

section
/-! SUPPORT. Each part of the invariant through a step, and the claims that every step keeps the invariant and has an answer
(10_state.md R23, R25, 60_exceptions.md R142). -/

namespace Sys2Proof.Machine

/-- The position after an event is inside the ranges (R23, R24). -/
theorem nextSeq_inRange {cfg : Config} {cw : CmdWord} {i : Instr} {f k : Nat} (hd : decodeCommand cw = .ok i)
    (hf : f < (commandFrames cfg i).length) : seqInRange cfg (nextSeq cw (commandFrames cfg i).length f k) := by
  unfold nextSeq
  split
  · exact ⟨i, hd, hf, by omega⟩
  · split
    · exact ⟨i, hd, by assumption, by omega⟩
    · trivial

/-- Every step keeps `SEQ` inside its ranges (R25). -/
theorem step_keeps_position {s t : State} (h : step s = .next t) (hpos : seqInRange s.cfg s.seq) :
    seqInRange t.cfg t.seq := by
  rw [step_next_cfg h]
  obtain ⟨rest, -, rfl⟩ | ⟨rest, -, rfl⟩ | ⟨hb, hs⟩ | ⟨cw, f, k, e, n, -, -, he, rfl⟩ := step_next_cases h
  · rw [blockReset_seq]
    trivial
  · exact hpos
  · obtain ⟨-, -, -, -, -, -, -, -, hq | ⟨cw, i, hd, hlen, hq⟩⟩ := step_next_idle hb hs h
    · rw [hq]
      trivial
    · rw [hq]
      exact ⟨i, hd, hlen, by omega⟩
  · obtain ⟨i, fr, hd, hf, -, rfl, -⟩ := eventAt_inv he
    rw [afterLine_seq]
    exact nextSeq_inRange hd (List.getElem?_eq_some_iff.mp hf).1

/-- The levels after an event fit the position after it (R102, R103). -/
theorem linesFit_after_event {s : State} (hinv : StateInv s) {cw : CmdWord} {f k n : Nat} {e : LineEvent}
    (hs : s.seq = .run cw f k) (he : eventAt s.cfg cw f k = some (e, n)) {t : State} (hcfg : t.cfg = s.cfg)
    (hq : t.seq = nextSeq cw n f k) (hl : t.lines = s.lines.set e.id e.level) : linesFit t := by
  obtain ⟨i, fr, -, -, hev, -, -, hF⟩ := eventAt_inv he
  have hat := hinv.linesAt hs hF
  unfold linesFit
  rw [hq, hl, hcfg, nextSeq]
  by_cases hk : k < 50
  · rw [if_pos hk]
    intro F hF'
    rw [hF, Option.some.injEq] at hF'
    subst hF'
    exact hat.next hev hk
  · obtain rfl : k = 50 := by have := frameEvent_index hev; omega
    obtain rfl : ⟨.load, true⟩ = e := Option.some.inj hev
    by_cases hf : f + 1 < n
    · rw [if_neg hk, if_pos hf]
      intro F _
      exact linesAt_next_frame hat.steady_after_last F f
    · rw [if_neg hk, if_neg hf]
      exact .inr hat.steady_after_last

/-- Every step keeps the lines at the levels the position has (R103, R161). -/
theorem step_keeps_linesFit {s t : State} (hinv : StateInv s) (h : step s = .next t) : linesFit t := by
  obtain ⟨rest, -, rfl⟩ | ⟨rest, -, rfl⟩ | ⟨hb, hs⟩ | ⟨cw, f, k, e, n, -, hs, he, rfl⟩ := step_next_cases h
  · simp [linesFit, resting]
  · exact hinv.lines
  · have hrest := hinv.resting_of_idle hs
    obtain ⟨hlines, -, -, -, hcfg, -, -, -, hq | ⟨cw, i, -, -, hq⟩⟩ := step_next_idle hb hs h
    · simpa only [linesFit, hq, hlines, hcfg] using hrest
    · simp only [linesFit, hq, hlines, hcfg]
      exact fun F _ => linesAt_start hrest F
  · exact linesFit_after_event hinv hs he (by simp) (by simp) (by simp)

/-- Settles O24: part by part; `DS` and the record change by writes, `DS` only at registers' addresses. -/
theorem stepKeepsInvariant : Obligations.StepKeepsInvariant := by
  intro s t hinv h
  have hcfg := step_next_cfg h
  obtain ⟨hds, hwritten⟩ := stepKeepsMemoryCanonical s t h
  refine ⟨hcfg ▸ hinv.configWf, hds hinv.dsWf, hwritten hinv.writtenWf, ?_, step_keeps_position h hinv.position,
    step_keeps_linesFit hinv h⟩
  rw [hcfg]
  refine step_keeps_ds (P := fun m => ∀ c ∈ m, ∃ r, (s.cfg.regMap.addr r).toNat = c.1) (by simp) ?_ h hinv.dsRecognised
  intro m r d hm c hc
  obtain rfl | hc := Memory.mem_write hc
  · exact ⟨r, rfl⟩
  · exact hm c hc

/-- Settles O25: after power-up `SEQ` is IDLE, the lines rest at `RESET_LINES`, and both memories are empty. -/
theorem powerUpMeetsInvariant : Obligations.PowerUpMeetsInvariant := by
  have hinv (c : Config) (rx : BitVec 16) (hc : c.wf = true) : StateInv (State.powerUp c rx) :=
    ⟨hc, List.Pairwise.nil, List.Pairwise.nil, by simp, trivial, .inl rfl⟩
  refine ⟨fun c rx hc => ⟨hinv c rx hc, ?_, rfl, List.isChain_singleton _⟩, hinv Config.default 0 (by decide)⟩
  intro cw f k F hq
  cases hq

/-- Settles O28: an idle block waits, executes or refuses; a position inside the ranges has an event; the outside always has
its step. -/
theorem stepAnswersOrRefuses : Obligations.StepAnswersOrRefuses := by
  intro s hinv
  cases hb : blockMoves s.inputs with
  | false => exact .inl ⟨_, step_outside hb⟩
  | true =>
    cases hs : s.seq with
    | idle =>
      rcases hi : s.inputs with _ | ⟨cw | _ | _ | _, rest⟩
      · exact .inl ⟨_, step_waiting hs (by simp [hi])⟩
      · cases hd : decodeCommand cw with
        | ok i =>
          obtain ⟨w, -, hexec⟩ | ⟨c, -, hexec⟩ := exec_command_cases hd (s.moveTo .idle rest)
          · exact .inl ⟨_, (step_presented hs hi hd).trans hexec⟩
          · exact .inl ⟨_, (step_presented hs hi hd).trans hexec⟩
        | error why => exact .inr ⟨cw, rest, why, rfl, rfl, hd, step_refused hs hi hd⟩
      · exact .inl ⟨_, step_waiting hs (by simp [hi])⟩
      · simp [hi, blockMoves] at hb
      · simp [hi, blockMoves] at hb
    | run cw f k =>
      have hpos := hinv.position
      rw [hs] at hpos
      obtain ⟨i, hd, hf, hk⟩ := hpos
      obtain ⟨t, ht, -⟩ := step_position hb hs hd hf hk
      exact .inl ⟨t, ht⟩

/-- Settles O30: CLOCK and DATA have their events inside a frame, where LOAD is high. -/
theorem clockAndDataMoveOnlyWhileLoadIsHigh : Obligations.ClockAndDataMoveOnlyWhileLoadIsHigh := by
  intro s t hinv hb h hmoved
  cases hs : s.seq with
  | idle =>
    obtain ⟨hlines, -⟩ := step_next_idle hb hs h
    simp [hlines] at hmoved
  | run cw f k =>
    obtain ⟨e, n, he, rfl⟩ := step_next_event hb hs h
    obtain ⟨i, fr, -, -, hev, -, -, hF⟩ := eventAt_inv he
    have hat := hinv.linesAt hs hF
    simp only [afterLine_lines, State.withWritten_lines, State.moveTo_lines] at hmoved ⊢
    have hload : e.id ≠ .load := by
      intro hid
      simp [hid, Lines.set] at hmoved
    have hkeep : (s.lines.set e.id e.level).load = s.lines.load := Lines.get_set_other s.lines e.id .load e.level hload.symm
    suffices hhigh : s.lines.load = true from ⟨hhigh, hkeep.trans hhigh⟩
    obtain ⟨-, rfl⟩ | ⟨j, hj, rfl, -⟩ | ⟨j, hj, rfl, -⟩ | ⟨j, hj, rfl, -⟩ | ⟨-, rfl⟩ | ⟨-, rfl⟩ := frameEvent_cases hev
    · exact absurd rfl hload
    · exact hat.loadHigh (by omega) (by omega)
    · exact hat.loadHigh (by omega) (by omega)
    · exact hat.loadHigh (by omega) (by omega)
    · exact absurd rfl hload
    · exact absurd rfl hload

end Sys2Proof.Machine
end

section
/-! SUPPORT. The shift register from one position to the next: the low end holds the bits sent so far; the claims that every
step keeps it so and that only the sent frame is latched (10_state.md R33, R36, 41_protocol_transmitter.md R105). -/

namespace Sys2Proof.Machine

/-- The low end of the shift register holds the first n bits of the frame, the latest lowest (R33, R36). -/
def holdsBits (n : Nat) (F : FrameWord) (rx : BitVec 16) : Prop :=
  ∀ j, j < n → rx.getLsbD (n - 1 - j) = F.getLsbD (15 - j)

/-- Before event k the shift register holds the bits sent so far: `framed` at a position. -/
theorem framed_at {s : State} (hfr : framed s) {cw : CmdWord} {f k : Nat} {F : FrameWord} (hs : s.seq = .run cw f k)
    (hF : currentFrame s.cfg cw f = some F) : holdsBits ((k - 1) / 3) F s.rxShift :=
  hfr cw f k F hs hF

/-- Shifting the next bit in makes one more (R33). -/
theorem holdsBits_shiftIn {n : Nat} {F : FrameWord} {rx : BitVec 16} (hn : n < 16) (h : holdsBits n F rx) :
    holdsBits (n + 1) F (shiftIn rx (F.getLsbD (15 - n))) := by
  intro j hj
  rw [shiftIn_bit]
  by_cases hlast : j = n
  · rw [if_pos (by omega), hlast]
  · have hin : n + 1 - 1 - j < 16 := by omega
    have hidx : n + 1 - 1 - j - 1 = n - 1 - j := by omega
    rw [if_neg (by omega), decide_eq_true hin, Bool.true_and, hidx, h j (by omega)]

/-- All sixteen bits are the frame (R105). -/
theorem holdsBits_all {F : FrameWord} {rx : BitVec 16} (h : holdsBits 16 F rx) : rx = F := by
  apply BitVec.eq_of_getLsbD_eq
  intro i hi
  have hbit := h (15 - i) (by omega)
  have hidx : 15 - (15 - i) = i := by omega
  simpa [hidx] using hbit

/-- Before its last event the shift register holds exactly the frame (R105). -/
theorem rxShift_before_latch {s : State} (hfr : framed s) {cw : CmdWord} {f : Nat} {F : FrameWord}
    (hs : s.seq = .run cw f 50) (hF : currentFrame s.cfg cw f = some F) : s.rxShift = F :=
  holdsBits_all (framed_at hfr hs hF)

/-- Inside a frame every event leaves the bits that the next position has: the third event of each bit shifts the bit in, the
others shift nothing (R33, R102). -/
theorem holdsBits_after_event {cfg : Config} {F : FrameWord} {f k : Nat} {l : Lines} {rx : BitVec 16} {e : LineEvent}
    (hat : LinesAt cfg F f k l) (he : frameEvent F k = some e) (hk : k < 50) (h : holdsBits ((k - 1) / 3) F rx) :
    holdsBits (k / 3) F (if e.id = .clock ∧ e.rises l = true then shiftIn rx l.data else rx) := by
  obtain ⟨rfl, rfl⟩ | ⟨j, hj, rfl, rfl⟩ | ⟨j, hj, rfl, rfl⟩ | ⟨j, hj, rfl, rfl⟩ | ⟨rfl, rfl⟩ | ⟨rfl, -⟩ :=
    frameEvent_cases he
  · intro j hj
    omega
  · rwa [if_neg (by simp), show (1 + 3 * j) / 3 = (1 + 3 * j - 1) / 3 by omega]
  · rwa [if_neg (by simp [LineEvent.rises]), show (2 + 3 * j) / 3 = (2 + 3 * j - 1) / 3 by omega]
  · have hlow : l.clock = false := hat.clockLow (by omega) (by omega) (by omega)
    have hdata : l.data = F.getLsbD (15 - j) := by
      rw [hat.dataSet (by omega) (by omega) (by omega), show (3 + 3 * j - 1) / 3 = j by omega]
    rw [if_pos (by simp [LineEvent.rises, Lines.get, hlow]), hdata, show (3 + 3 * j) / 3 = j + 1 by omega]
    rw [show (3 + 3 * j - 1) / 3 = j by omega] at h
    exact holdsBits_shiftIn hj h
  · rwa [if_neg (by simp)]
  · omega

/-- Before the first event of a frame nothing of it has been sent. -/
theorem framed_of_start {s : State} (h : s.seq = .idle ∨ ∃ cw f, s.seq = .run cw f 0) : framed s := by
  intro cw f k F hq _ j hj
  obtain h | ⟨cw', f', h⟩ := h
  · rw [h] at hq
    cases hq
  · rw [h] at hq
    cases hq
    omega

/-- Settles O26: inside a frame event by event; a new frame, an idle block and a reset start with nothing sent. -/
theorem stepKeepsFraming : Obligations.StepKeepsFraming := by
  intro s t hinv hfr hhead h
  obtain ⟨rest, -, rfl⟩ | ⟨rest, hin, rfl⟩ | ⟨hb, hs⟩ | ⟨cw, f, k, e, n, -, hs, he, rfl⟩ := step_next_cases h
  · exact framed_of_start (.inl (blockReset_seq _))
  · simp [hin] at hhead
  · obtain ⟨-, -, -, -, -, -, -, -, hq | ⟨cw, i, -, -, hq⟩⟩ := step_next_idle hb hs h
    · exact framed_of_start (.inl hq)
    · exact framed_of_start (.inr ⟨cw, 0, hq⟩)
  · obtain ⟨i, fr, -, -, hev, -, -, hF⟩ := eventAt_inv he
    by_cases hk : k < 50
    · intro cw' f' k' F hq hF'
      rw [afterLine_seq, State.withWritten_seq, State.moveTo_seq, nextSeq, if_pos hk] at hq
      cases hq
      rw [afterLine_cfg, State.withWritten_cfg, State.moveTo_cfg, hF, Option.some.injEq] at hF'
      subst hF'
      rw [afterLine_rxShift]
      exact holdsBits_after_event (hinv.linesAt hs hF) hev hk (framed_at hfr hs hF)
    · refine framed_of_start ?_
      rw [afterLine_seq, State.withWritten_seq, State.moveTo_seq, nextSeq, if_neg hk]
      split
      · exact .inr ⟨cw, f + 1, rfl⟩
      · exact .inl rfl

/-- Where a rise of LOAD comes from: the last event of a frame, or the first event of a first frame from the reset levels with
LOAD low (R103, 70_reset_and_hazards.md R171). -/
theorem load_rise_position {s : State} (hinv : StateInv s) {cw : CmdWord} {f k n : Nat} {e : LineEvent}
    (hs : s.seq = .run cw f k) (he : eventAt s.cfg cw f k = some (e, n)) (hlow : s.lines.load = false)
    (hhigh : (s.lines.set e.id e.level).load = true) :
    k = 50 ∨ (k = 0 ∧ f = 0 ∧ s.lines = s.cfg.resetLines) := by
  obtain ⟨i, fr, -, -, hev, -, -, hF⟩ := eventAt_inv he
  have hat := hinv.linesAt hs hF
  obtain rfl := LineEvent.eq_load_high hlow hhigh
  obtain rfl | rfl := frameEvent_load_high hev
  · obtain hrest | ⟨-, hload⟩ := hat.resting_at_start
    · cases f with
      | zero => exact .inr ⟨rfl, rfl, hrest⟩
      | succ f =>
        obtain ⟨-, hload⟩ := hat.between rfl (Nat.succ_pos f)
        simp [hlow] at hload
    · simp [hlow] at hload
  · exact .inl rfl

/-- Settles O29: LOAD rises at those two positions only, and at the last event the shift register holds the frame. -/
theorem onlyTheSentFrameIsLatched : Obligations.OnlyTheSentFrameIsLatched := by
  intro s t hinv hfr hb h hne
  obtain ⟨hlatch, hkeep⟩ := step_next_latch hb h
  obtain ⟨hlow, hhigh⟩ : s.lines.load = false ∧ t.lines.load = true :=
    Decidable.by_contra fun hno => hne (hkeep hno).1
  obtain ⟨htrace, -⟩ := hlatch hlow hhigh
  cases hs : s.seq with
  | idle =>
    obtain ⟨-, -, -, hsame, -⟩ := step_next_idle hb hs h
    exact absurd hsame hne
  | run cw f k =>
    obtain ⟨e, n, he, rfl⟩ := step_next_event hb hs h
    obtain ⟨i, fr, -, -, -, -, -, hF⟩ := eventAt_inv he
    obtain rfl | ⟨rfl, rfl, hlines⟩ := load_rise_position hinv hs he hlow (by simpa using hhigh)
    · exact .inl ⟨cw, f, _, rfl, hF, by rw [htrace, rxShift_before_latch hfr hs hF]⟩
    · exact .inr ⟨cw, rfl, hlines, hlines ▸ hlow, htrace⟩

end Sys2Proof.Machine
end

section
/-! SUPPORT. The waveform: every change of a level joins it, so it stays a chain of single changes that ends at the levels
there are; and the claim that every step keeps it so (00_scope.md R9, 10_state.md R22). -/

namespace Sys2Proof.Machine

/-- One event keeps a waveform complete: a change of a level moves one line and joins as the last triple (R22, R111). -/
theorem waveform_after_event {w : List Lines} {l : Lines} (e : LineEvent) (hlast : w.getLast? = some l)
    (hsteps : w.IsChain oneLineApart) :
    (w ++ triplesFrom l [e]).getLast? = some (l.set e.id e.level) ∧ (w ++ triplesFrom l [e]).IsChain oneLineApart := by
  rw [triplesFrom_single]
  split
  · rename_i hsame
    simpa [hsame] using ⟨hlast, hsteps⟩
  · rename_i hmoved
    rw [Lines.set_eq_self_iff] at hmoved
    refine ⟨by simp, List.IsChain.append hsteps (List.isChain_singleton _) ?_⟩
    intro a ha b hb
    rw [hlast, Option.mem_def, Option.some.injEq] at ha
    rw [List.head?_cons, Option.mem_def, Option.some.injEq] at hb
    subst ha hb
    have hlevel : e.level = !l.get e.id := Bool.eq_not.mpr (Ne.symm hmoved)
    exact ⟨e.id, by rw [hlevel]⟩

/-- Putting a line at a level keeps the waveform complete, whatever happens to the shift register. -/
theorem WaveFits.setLine {s : State} (h : WaveFits s) (e : LineEvent) (rx : BitVec 16) :
    WaveFits { s.setLine e with rxShift := rx } := by
  obtain ⟨hlast, hsteps⟩ := waveform_after_event e h.last h.steps
  exact ⟨hlast, hsteps⟩

/-- A state with the same lines and the same waveform has it complete too. -/
theorem WaveFits.congr {s t : State} (h : WaveFits s) (hlines : t.lines = s.lines) (hwave : t.waveform = s.waveform) :
    WaveFits t :=
  ⟨by rw [hwave, hlines, h.last], by rw [hwave]; exact h.steps⟩

/-- Settles O58: a step of the block changes at most one line, by an event; a reset changes the three one after another. -/
theorem stepKeepsTheWaveform : Obligations.StepKeepsTheWaveform := by
  intro s t hfit h
  obtain ⟨rest, -, rfl⟩ | ⟨rest, -, rfl⟩ | ⟨hb, hs⟩ | ⟨cw, f, k, e, n, -, -, -, rfl⟩ := step_next_cases h
  · exact blockReset_keeps WaveFits (fun u hu => hu.congr (latch_lines u) (latch_waveform u))
      (fun u e rx hu => hu.setLine e rx) (fun u hu => hu.congr rfl rfl) (fun u hu => hu.congr rfl rfl) _
      (hfit.congr rfl rfl)
  · exact hfit.congr rfl rfl
  · obtain ⟨hlines, -, -, -, -, -, hwave, -⟩ := step_next_idle hb hs h
    exact hfit.congr hlines hwave
  · exact (hfit.setLine e s.rxShift).congr (by simp) (by simp)

end Sys2Proof.Machine
end

section
/-! SUPPORT. What the receiver sees of a reset: the one edge of CLOCK and the one edge of LOAD that the three line changes can
make, in whatever order they come; and the claims on a reset (70_reset_and_hazards.md R160, R166). -/

namespace Sys2Proof.Machine

/-- Two states that agree field by field are the same. -/
@[ext] theorem State.ext {s t : State} (cfg : s.cfg = t.cfg) (inputs : s.inputs = t.inputs) (seq : s.seq = t.seq)
    (lines : s.lines = t.lines) (rxShift : s.rxShift = t.rxShift) (ds : s.ds = t.ds)
    (callTrace : s.callTrace = t.callTrace) (waveform : s.waveform = t.waveform)
    (frameTrace : s.frameTrace = t.frameTrace) (written : s.written = t.written) (draws : s.draws = t.draws) : s = t := by
  cases s
  cases t
  simp_all only

/-- A step on the reset input is the reset, the input taken. -/
theorem step_reset {s : State} {rest : List Input} (hin : s.inputs = .reset :: rest) :
    step s = .next (blockReset ((s.moveTo s.seq rest).withWritten (resetCommit s))) := by
  rw [step_outside (by rw [hin]; rfl), outsideMove, hin]

/-- Where the line does not rise, its change at a reset only puts it at its level (R166). -/
theorem resetLine_no_rise {s : State} {id : LineId} (h : s.lines.get id = true ∨ s.cfg.resetLines.get id = false) :
    resetLine s id = s.setLine ⟨id, s.cfg.resetLines.get id⟩ := by
  have hno : LineEvent.rises ⟨id, s.cfg.resetLines.get id⟩ s.lines = false := by
    obtain h | h := h <;> simp [LineEvent.rises, h]
  simp [resetLine, hno]

/-- A change of DATA at a reset is no edge for the receiver (R33, R34). -/
theorem resetLine_data (s : State) : resetLine s .data = s.setLine ⟨.data, s.cfg.resetLines.data⟩ := by
  unfold resetLine
  dsimp only
  split <;> rfl

/-- A rise of LOAD at a reset latches (R166). -/
theorem resetLine_load_rise {s : State} (hlow : s.lines.load = false) (hhigh : s.cfg.resetLines.load = true) :
    resetLine s .load = latch (s.setLine ⟨.load, true⟩) := by
  simp [resetLine, LineEvent.rises, Lines.get, hlow, hhigh]

/-- A rise of CLOCK at a reset while LOAD is high shifts DATA in (R166, R33). -/
theorem resetLine_clock_rise {s : State} (hlow : s.lines.clock = false) (hhigh : s.cfg.resetLines.clock = true)
    (hload : s.lines.load = true) :
    resetLine s .clock = { s.setLine ⟨.clock, true⟩ with rxShift := shiftIn s.rxShift s.lines.data } := by
  simp [resetLine, LineEvent.rises, Lines.get, hlow, hhigh, hload]

/-- Where CLOCK does not rise, one line's change at a reset keeps the shift register (R33). -/
theorem resetLine_rxShift {s : State} (id : LineId)
    (h : s.lines.get .clock = true ∨ s.cfg.resetLines.get .clock = false) : (resetLine s id).rxShift = s.rxShift := by
  cases id with
  | data => rw [resetLine_data]; rfl
  | clock => rw [resetLine_no_rise h]; rfl
  | load =>
    unfold resetLine
    dsimp only
    split <;> simp

/-- Where LOAD does not rise, one line's change at a reset latches nothing (R34). -/
theorem resetLine_latches_nothing {s : State} (id : LineId)
    (h : s.lines.get .load = true ∨ s.cfg.resetLines.get .load = false) :
    (resetLine s id).ds = s.ds ∧ (resetLine s id).frameTrace = s.frameTrace := by
  cases id with
  | data => rw [resetLine_data]; exact ⟨rfl, rfl⟩
  | load => rw [resetLine_no_rise h]; exact ⟨rfl, rfl⟩
  | clock =>
    unfold resetLine
    dsimp only
    split <;> exact ⟨rfl, rfl⟩

/-- A line that does not rise on its way to its reset level does not rise later either (R166). -/
theorem no_rise_after_resetLine {s : State} {id : LineId} (id' : LineId)
    (h : s.lines.get id = true ∨ s.cfg.resetLines.get id = false) :
    (resetLine s id').lines.get id = true ∨ (resetLine s id').cfg.resetLines.get id = false := by
  rw [resetLine_lines, resetLine_cfg]
  by_cases hid : id = id'
  · subst hid
    rw [Lines.get_set_same]
    exact Bool.eq_false_or_eq_true _
  · rwa [Lines.get_set_other _ _ _ _ hid]

/-- Without a rise of CLOCK the line changes keep the shift register, whatever their order (R33). -/
theorem foldl_resetLine_rxShift (ids : List LineId) {s : State}
    (h : s.lines.get .clock = true ∨ s.cfg.resetLines.get .clock = false) :
    (ids.foldl resetLine s).rxShift = s.rxShift := by
  induction ids generalizing s with
  | nil => rfl
  | cons id ids ih => rw [List.foldl_cons, ih (no_rise_after_resetLine id h), resetLine_rxShift id h]

/-- Without a rise of LOAD the line changes latch nothing, whatever their order (R34). -/
theorem foldl_resetLine_latches_nothing (ids : List LineId) {s : State}
    (h : s.lines.get .load = true ∨ s.cfg.resetLines.get .load = false) :
    (ids.foldl resetLine s).ds = s.ds ∧ (ids.foldl resetLine s).frameTrace = s.frameTrace := by
  induction ids generalizing s with
  | nil => exact ⟨rfl, rfl⟩
  | cons id ids ih =>
    obtain ⟨hds, htrace⟩ := resetLine_latches_nothing id h
    obtain ⟨hds', htrace'⟩ := ih (no_rise_after_resetLine id h)
    exact ⟨hds'.trans hds, htrace'.trans htrace⟩

/-- Without a rise of CLOCK a rise of LOAD latches what the shift register holds, once, whenever its turn comes (R166). -/
theorem foldl_resetLine_load_rise {ids : List LineId} {s : State} (hmem : .load ∈ ids)
    (hclock : s.lines.get .clock = true ∨ s.cfg.resetLines.get .clock = false) (hlow : s.lines.load = false)
    (hhigh : s.cfg.resetLines.load = true) :
    (ids.foldl resetLine s).ds = deliver s.cfg.regMap s.ds [s.rxShift] ∧
      (ids.foldl resetLine s).frameTrace = s.frameTrace ++ [s.rxShift] := by
  induction ids generalizing s with
  | nil => cases hmem
  | cons id ids ih =>
    have hclock' := no_rise_after_resetLine id hclock
    rw [List.foldl_cons]
    cases id with
    | load =>
      obtain ⟨hds, htrace⟩ := foldl_resetLine_latches_nothing ids (s := resetLine s .load)
        (.inl (by rw [resetLine_lines, Lines.get_set_same]; exact hhigh))
      rw [hds, htrace, resetLine_load_rise hlow hhigh, latch_ds, latch_frameTrace]
      exact ⟨rfl, rfl⟩
    | data =>
      rw [resetLine_data] at hclock' ⊢
      exact ih (by simpa using hmem) hclock' hlow hhigh
    | clock =>
      rw [resetLine_no_rise hclock] at hclock' ⊢
      exact ih (by simpa using hmem) hclock' hlow hhigh

/-- A rise of CLOCK while LOAD stays high shifts one bit in: DATA's level before or after its own change (R166). -/
theorem foldl_resetLine_clock_rise {ids : List LineId} {s : State} (hmem : .clock ∈ ids)
    (hlow : s.lines.clock = false) (hhigh : s.cfg.resetLines.clock = true) (hload : s.lines.load = true)
    (hload' : s.cfg.resetLines.load = true) :
    (ids.foldl resetLine s).rxShift = shiftIn s.rxShift s.lines.data ∨
      (ids.foldl resetLine s).rxShift = shiftIn s.rxShift s.cfg.resetLines.data := by
  induction ids generalizing s with
  | nil => cases hmem
  | cons id ids ih =>
    rw [List.foldl_cons]
    cases id with
    | clock =>
      rw [foldl_resetLine_rxShift ids (.inl (by rw [resetLine_lines, Lines.get_set_same]; exact hhigh)),
        resetLine_clock_rise hlow hhigh hload]
      exact .inl rfl
    | data =>
      rw [resetLine_data]
      have hrx := ih (s := s.setLine ⟨.data, s.cfg.resetLines.data⟩) (by simpa using hmem) hlow hhigh hload hload'
      exact .inr (hrx.elim id id)
    | load =>
      rw [resetLine_no_rise (id := .load) (.inl hload)]
      exact ih (by simpa using hmem) hlow hhigh hload' hload'

/-- A reset without a rise of CLOCK keeps the shift register (R160). -/
theorem blockReset_rxShift {s : State} (h : s.lines.clock = true ∨ s.cfg.resetLines.clock = false) :
    (blockReset s).rxShift = s.rxShift :=
  foldl_resetLine_rxShift _ (s := s.moveTo .idle s.inputs) h

/-- A reset without a rise of LOAD latches nothing (R160). -/
theorem blockReset_latches_nothing {s : State} (h : s.lines.load = true ∨ s.cfg.resetLines.load = false) :
    (blockReset s).ds = s.ds ∧ (blockReset s).frameTrace = s.frameTrace :=
  foldl_resetLine_latches_nothing _ (s := s.moveTo .idle s.inputs) h

/-- A reset that raises LOAD, and not CLOCK, latches what the shift register holds (R166). -/
theorem blockReset_load_rise {s : State} (hclock : s.lines.clock = true ∨ s.cfg.resetLines.clock = false)
    (hlow : s.lines.load = false) (hhigh : s.cfg.resetLines.load = true) :
    (blockReset s).ds = deliver s.cfg.regMap s.ds [s.rxShift] ∧
      (blockReset s).frameTrace = s.frameTrace ++ [s.rxShift] :=
  foldl_resetLine_load_rise (s := s.moveTo .idle s.inputs) (mem_lineOrder _ _) hclock hlow hhigh

/-- A reset that raises CLOCK while LOAD stays high shifts one bit in (R166). -/
theorem blockReset_clock_rise {s : State} (hlow : s.lines.clock = false) (hhigh : s.cfg.resetLines.clock = true)
    (hload : s.lines.load = true) (hload' : s.cfg.resetLines.load = true) :
    (blockReset s).rxShift = shiftIn s.rxShift s.lines.data ∨
      (blockReset s).rxShift = shiftIn s.rxShift s.cfg.resetLines.data :=
  foldl_resetLine_clock_rise (s := s.moveTo .idle s.inputs) (mem_lineOrder _ _) hlow hhigh hload hload'

/-- A reset draws one free value, the order of its line changes (R166). -/
@[simp] theorem blockReset_draws (s : State) : (blockReset s).draws = s.draws + 1 := by
  unfold blockReset
  rw [State.drawn_draws, foldl_resetLine_keeps (fun t => t.draws = s.draws) (by simp) (by simp) _
    (s.moveTo .idle s.inputs) rfl]

/-- Settles O53: the fields a reset fixes, and the waveform it adds. -/
theorem resetIdlesTheBlock : Obligations.ResetIdlesTheBlock := by
  intro s rest hin
  obtain ⟨ids, hperm, hwave⟩ := blockReset_waveform ((s.moveTo s.seq rest).withWritten (resetCommit s))
  exact ⟨_, step_reset hin, by simp, by simp [busy], by simp, by simp, by simp, by simp, ids, hperm, hwave⟩

/-- Resting lines have no rise of CLOCK or LOAD at a reset: they are at the reset levels, or high (R161, R103). -/
theorem resting.no_rise {cfg : Config} {l : Lines} (h : resting cfg l) :
    (l.clock = true ∨ cfg.resetLines.clock = false) ∧ (l.load = true ∨ cfg.resetLines.load = false) := by
  obtain rfl | ⟨hclock, hload⟩ := h
  · exact ⟨Bool.eq_false_or_eq_true _, Bool.eq_false_or_eq_true _⟩
  · exact ⟨.inl hclock, .inl hload⟩

/-- Settles O54: between commands the lines rest, so no line rises, and an idle block has no write to commit. -/
theorem resetWhileIdleLeavesTheDevice : Obligations.ResetWhileIdleLeavesTheDevice := by
  intro s rest hinv hs hin
  have hcommit : resetCommit s = s.written := by simp only [resetCommit, hs]
  have hself : (s.moveTo s.seq rest).withWritten s.written = s.moveTo s.seq rest := rfl
  obtain ⟨hclock, hload⟩ := (hinv.resting_of_idle hs).no_rise
  obtain ⟨ids, hperm, hwave⟩ := blockReset_waveform (s.moveTo s.seq rest)
  have hrx := blockReset_rxShift (s := s.moveTo s.seq rest) hclock
  obtain ⟨hds, htrace⟩ := blockReset_latches_nothing (s := s.moveTo s.seq rest) hload
  refine ⟨ids, hperm, ?_⟩
  rw [step_reset hin, hcommit, hself]
  refine congrArg _ (State.ext (blockReset_cfg _) (blockReset_inputs _) ?_ (blockReset_lines _) hrx hds
    (blockReset_callTrace _) hwave htrace (blockReset_written _) (blockReset_draws _))
  rw [blockReset_seq, hs]

/-- Settles O55: before the last event CLOCK is high and LOAD low, and the shift register holds the frame. -/
theorem resetBeforeTheLatch : Obligations.ResetBeforeTheLatch := by
  intro s cw f F rest hinv hfr hs hF hin
  have hat := hinv.linesAt hs hF
  have hclock : s.lines.clock = true := hat.clockHigh (by omega) (by omega) (by omega)
  obtain rfl : s.rxShift = F := rxShift_before_latch hfr hs hF
  refine ⟨_, step_reset hin, blockReset_rxShift (.inl hclock), fun hhigh => ?_, fun hlow => ?_⟩
  · obtain ⟨hds, htrace⟩ := blockReset_load_rise (s := (s.moveTo s.seq rest).withWritten (resetCommit s)) (.inl hclock)
      (hat.loadLow rfl) hhigh
    exact ⟨htrace, hds⟩
  · obtain ⟨hds, htrace⟩ := blockReset_latches_nothing (s := (s.moveTo s.seq rest).withWritten (resetCommit s)) (.inr hlow)
    exact ⟨htrace, hds⟩

/-- Settles O56: CLOCK rises once while LOAD stays high. -/
theorem resetShiftsOneExtraBit : Obligations.ResetShiftsOneExtraBit := by
  intro s rest hin hlow hload hhigh hload'
  obtain ⟨hds, htrace⟩ := blockReset_latches_nothing (s := (s.moveTo s.seq rest).withWritten (resetCommit s)) (.inl hload)
  exact ⟨_, step_reset hin, htrace, hds,
    blockReset_clock_rise (s := (s.moveTo s.seq rest).withWritten (resetCommit s)) hlow hhigh hload hload'⟩

end Sys2Proof.Machine
end

section
/-! SUPPORT. The initialised device: every register holds the value the block wrote; the claims on what keeps it so and what
does not (42_display_control.md R134, 70_reset_and_hazards.md R163, R166, R171). -/

namespace Sys2Proof.Machine

/-- The register at address x holds a value, and the block wrote it (R134). -/
def holdsWritten (ds written : Memory) (x : Nat) : Prop := ∃ v, ds.read x = some v ∧ written.read x = some v

/-- The device is initialised exactly when every register holds a value the block wrote (R134). -/
theorem initialised_iff (s : State) :
    uninitialized s = false ↔ ∀ r, holdsWritten s.ds s.written (s.cfg.regMap.addr r).toNat := by
  simp only [uninitialized, List.any_eq_false, DevReg.mem_all, true_imp_iff]
  refine forall_congr' fun r => ?_
  cases hv : s.ds.read (s.cfg.regMap.addr r).toNat with
  | none => simp [holdsWritten, hv]
  | some v =>
    simp only [holdsWritten, hv, Option.isNone_some, Bool.false_or, bne_iff_ne, ne_eq, not_not, Option.some.injEq,
      exists_eq_left']
    exact eq_comm

/-- The latch of the frame that the block commits keeps what every register holds the value written (R34, 20_memory.md R53). -/
theorem holdsWritten_deliver {m : RegMap} {ds w : Memory} (fr : Frame) (r : DevReg)
    (h : holdsWritten ds w (m.addr r).toNat) :
    holdsWritten (deliver m ds [frameWord fr]) (w.write fr.1.toNat fr.2) (m.addr r).toNat := by
  unfold holdsWritten
  rw [deliver_frame_read]
  by_cases hx : m.addr r = fr.1
  · have hsome : (m.find fr.1).isSome = true := RegMap.find_isSome_iff.mpr ⟨r, hx⟩
    rw [if_pos ⟨hsome, by rw [hx]⟩, hx, Memory.read_write_same]
    exact ⟨fr.2, rfl, rfl⟩
  · have hx' : (m.addr r).toNat ≠ fr.1.toNat := fun he => hx (BitVec.eq_of_toNat_eq he)
    rw [if_neg (fun hc => hx' hc.2), Memory.read_write_other _ _ _ _ hx']
    exact h

/-- At a position inside the ranges there is a frame to send (R23). -/
theorem StateInv.frame_at_position {s : State} (hinv : StateInv s) {cw : CmdWord} {f k : Nat} (hs : s.seq = .run cw f k) :
    ∃ fr, frameAt s.cfg cw f = some fr ∧ currentFrame s.cfg cw f = some (frameWord fr) ∧ k ≤ 50 := by
  have hpos := hinv.position
  rw [hs] at hpos
  obtain ⟨i, hd, hf, hk⟩ := hpos
  have hfr : frameAt s.cfg cw f = some (commandFrames s.cfg i)[f] := by
    simp only [frameAt, hd, List.getElem?_eq_getElem hf]
  exact ⟨_, hfr, by rw [currentFrame, hfr]; rfl, hk⟩

/-- A reset without a rise of LOAD commits nothing (R166). -/
theorem resetCommit_no_rise {s : State} (h : s.lines.load = true ∨ s.cfg.resetLines.load = false) :
    resetCommit s = s.written := by
  unfold resetCommit
  split
  · rfl
  · rw [if_neg (by obtain h | h := h <;> simp [h])]

/-- A rise of LOAD at a reset comes just before the last event of a frame: elsewhere LOAD is high or rests (R103, R166). -/
theorem reset_load_rise_position {s : State} (hinv : StateInv s) (hlow : s.lines.load = false)
    (hhigh : s.cfg.resetLines.load = true) :
    ∃ cw f fr, s.seq = .run cw f 50 ∧ frameAt s.cfg cw f = some fr ∧ currentFrame s.cfg cw f = some (frameWord fr) := by
  have hno : ¬resting s.cfg s.lines := fun hrest => by
    obtain ⟨-, h⟩ := hrest.no_rise
    simp [hlow, hhigh] at h
  cases hs : s.seq with
  | idle => exact absurd (hinv.resting_of_idle hs) hno
  | run cw f k =>
    obtain ⟨fr, hfr, hF, hk⟩ := hinv.frame_at_position hs
    have hat := hinv.linesAt hs hF
    obtain rfl | hk0 : k = 0 ∨ 1 ≤ k := by omega
    · exact absurd hat.resting_at_start hno
    obtain rfl | hk49 : k = 50 ∨ k ≤ 49 := by omega
    · exact ⟨cw, f, fr, rfl, hfr, hF⟩
    · have := hat.loadHigh hk0 hk49
      simp [hlow] at this

/-- Settles O59: what the block commits is what the receiver latches, at the last event of a frame and at a reset just before
it; no other step but the two that are excepted latches or commits anything. -/
theorem stepKeepsTheDeviceInitialised : Obligations.StepKeepsTheDeviceInitialised := by
  intro s t hinv hfr hinit hhead hspur h
  rw [initialised_iff] at hinit ⊢
  rw [step_next_cfg h]
  obtain ⟨rest, -, rfl⟩ | ⟨rest, hin, rfl⟩ | ⟨hb, hs⟩ | ⟨cw, f, k, e, n, hb, hs, he, rfl⟩ := step_next_cases h
  · rw [blockReset_written, State.withWritten_written]
    by_cases hrise : s.lines.load = false ∧ s.cfg.resetLines.load = true
    · obtain ⟨hlow, hhigh⟩ := hrise
      obtain ⟨cw, f, fr, hs, hframe, hF⟩ := reset_load_rise_position hinv hlow hhigh
      have hclock := (hinv.linesAt hs hF).clockHigh (by omega) (by omega) (by omega)
      obtain ⟨hds, -⟩ := blockReset_load_rise (s := (s.moveTo s.seq rest).withWritten (resetCommit s)) (.inl hclock) hlow
        hhigh
      have hcommit : resetCommit s = s.written.write fr.1.toNat fr.2 := by
        simp [resetCommit, hs, hlow, hhigh, commit_last _ hframe]
      rw [hds, hcommit]
      simp only [State.withWritten_cfg, State.withWritten_ds, State.withWritten_rxShift, State.moveTo_cfg, State.moveTo_ds,
        State.moveTo_rxShift, rxShift_before_latch hfr hs hF]
      exact fun r => holdsWritten_deliver fr r (hinit r)
    · have hno : s.lines.load = true ∨ s.cfg.resetLines.load = false :=
        (Bool.eq_false_or_eq_true s.lines.load).imp_right fun hlow => by simpa [hlow] using hrise
      obtain ⟨hds, -⟩ := blockReset_latches_nothing (s := (s.moveTo s.seq rest).withWritten (resetCommit s)) hno
      rw [hds, resetCommit_no_rise hno]
      exact hinit
  · simp [hin] at hhead
  · obtain ⟨-, -, hds, -, -, -, -, hwritten, -⟩ := step_next_idle hb hs h
    rw [hds, hwritten]
    exact hinit
  · obtain ⟨i, fr, -, -, hev, -, hframe, hF⟩ := eventAt_inv he
    rw [afterLine_written, State.withWritten_written, afterLine_ds]
    by_cases hk : k = 50
    · subst hk
      obtain rfl : ⟨.load, true⟩ = e := Option.some.inj hev
      rw [if_pos ⟨(hinv.linesAt hs hF).loadLow rfl, rfl⟩, commit_last _ hframe]
      simp only [State.withWritten_cfg, State.withWritten_ds, State.withWritten_rxShift, State.moveTo_cfg, State.moveTo_ds,
        State.moveTo_rxShift, rxShift_before_latch hfr hs hF]
      exact fun r => holdsWritten_deliver fr r (hinit r)
    · rw [commit_before _ _ _ _ hk, if_neg]
      · exact hinit
      · rintro ⟨hlow, hhigh⟩
        obtain h50 | ⟨rfl, rfl, -⟩ := load_rise_position hinv hs he hlow hhigh
        · exact hk h50
        · exact hspur ⟨hb, hlow, cw, hs⟩

/-- Every register's address is recognised, so a claim's read of it meets an entry (R30, R35). -/
theorem readReg_eq (s : State) (r : DevReg) :
    readReg s r =
      (s.ds.read (s.cfg.regMap.addr r).toNat).elim (.error (.dsNoValue (s.cfg.regMap.addr r))) .ok := by
  have hsome : (s.cfg.regMap.find (s.cfg.regMap.addr r)).isSome = true := RegMap.find_isSome_iff.mpr ⟨r, rfl⟩
  obtain ⟨r', hr'⟩ := Option.isSome_iff_exists.mp hsome
  rw [readReg, readDS]
  cases hv : s.ds.read (s.cfg.regMap.addr r).toNat <;> simp only [hr', Option.elim]

/-- A claim's read of a register that holds a value answers it (R35). -/
theorem readReg_of_read {s : State} {r : DevReg} {v : Byte} (h : s.ds.read (s.cfg.regMap.addr r).toNat = some v) :
    readReg s r = .ok v := by
  rw [readReg_eq, h, Option.elim_some]

/-- Settles O60: the first event of the first frame latches the shift register and commits nothing, so the register and the
record differ. -/
theorem spuriousLatchLeavesTheDeviceUninitialised : Obligations.SpuriousLatchLeavesTheDeviceUninitialised := by
  intro s r hinv ⟨hb, hlow, cw, hs⟩ haddr hne
  obtain ⟨i, hd, hf, hk⟩ : seqInRange s.cfg (.run cw 0 0) := hs ▸ hinv.position
  have hstep := step_event hb hs (eventAt_eq (e := ⟨.load, true⟩) hd (List.getElem?_eq_getElem hf) rfl)
  rw [commit_before _ _ _ _ (by omega)] at hstep
  generalize ht : afterLine _ _ = t at hstep
  have hcfg : t.cfg = s.cfg := step_next_cfg hstep
  have hwritten : t.written = s.written := by simp [← ht]
  have hread : t.ds.read (t.cfg.regMap.addr r).toNat = some (frameData s.rxShift) := by
    obtain ⟨-, hds⟩ := (step_next_latch hb hstep).1 hlow (by simp [← ht, Lines.set])
    rw [hcfg, haddr, hds, deliver_single_read, if_pos ⟨RegMap.find_isSome_iff.mpr ⟨r, haddr⟩, rfl⟩]
  refine ⟨t, hstep, readReg_of_read hread, Bool.eq_true_of_not_eq_false fun hinit => hne ?_⟩
  obtain ⟨v, hv, hw⟩ := (initialised_iff t).mp hinit r
  rw [← haddr, ← hcfg, ← hwritten, hw, ← hv, hread]

/-- Where no entry has a value, a claim's read of a register faults and the device is uninitialised (R163, R134). -/
theorem readReg_no_value {s : State} (hds : s.ds = []) (r : DevReg) :
    readReg s r = .error (.dsNoValue (s.cfg.regMap.addr r)) ∧ uninitialized s = true := by
  refine ⟨by rw [readReg_eq, hds]; rfl, Bool.eq_true_of_not_eq_false fun hinit => ?_⟩
  obtain ⟨v, hv, -⟩ := (initialised_iff s).mp hinit r
  rw [hds] at hv
  cases hv

/-- Settles O57: a power-up of the device empties `DS`, and changes nothing of the block. -/
theorem powerUpLeavesNoValue : Obligations.PowerUpLeavesNoValue := by
  refine ⟨fun c rx r _ => readReg_no_value rfl r, fun s rest r _ hin => ?_⟩
  have hstep : step s = .next (devicePowerUp (s.moveTo s.seq rest)) := by
    rw [step_outside (by rw [hin]; rfl), outsideMove, hin]
  obtain ⟨hread, huninit⟩ := readReg_no_value (s := devicePowerUp (s.moveTo s.seq rest)) rfl r
  exact ⟨_, hstep, hread, huninit, rfl, rfl, rfl, rfl, rfl, rfl, rfl⟩

end Sys2Proof.Machine
end

section
/-! SUPPORT. What executing an instruction does, for each of the 25, and the claims on it (60_exceptions.md R140,
40_segment_encoder.md R80, 10_state.md R34). -/

namespace Sys2Proof.Machine

/-- Settles O34: a command is accepted or waits, a frame row is latched. -/
theorem noInstructionFails : Obligations.NoInstructionFails := by
  intro i s
  cases i with
  | lookup c =>
    cases hs : s.seq with
    | idle => exact ⟨emitResult (lookup s.cfg c) s, by simp only [exec, execLookup, hs]⟩
    | run cw f k => exact ⟨s, by simp only [exec, execLookup, hs]⟩
  | _ => exact ⟨_, rfl⟩

/-- Settles O35: `lookup` reads the table at the normalised character. -/
theorem lookupEmitsThePattern : Obligations.LookupEmitsThePattern := by
  intro s c hs
  simp only [exec, execLookup, hs, emitResult, lookup, normalise, isLower, decide_eq_true_eq]

/-- Settles O45: each of the rows is the row of its register, and a write is read at its own address only. -/
theorem frameRowsWriteTheirRegister : Obligations.FrameRowsWriteTheirRegister := by
  intro s d row hrow
  have hrow' : row.1 = Instr.frameOf row.2 d := by
    simp only [List.mem_cons, List.not_mem_nil, or_false] at hrow
    rcases hrow with rfl | rfl | rfl | rfl | rfl | rfl | rfl | rfl | rfl | rfl | rfl | rfl | rfl <;> rfl
  rw [hrow', exec_frameOf]
  exact ⟨_, rfl, Memory.read_write_same _ _ _, fun a ha => Memory.read_write_other _ _ _ _ ha⟩

/-- Settles O46: the row records the frame of its two bytes. -/
theorem noopFrameIsOnlyRecorded : Obligations.NoopFrameIsOnlyRecorded := fun _ _ => rfl

end Sys2Proof.Machine
end

section
/-! SUPPORT. A command from its acceptance to its end: the position after each step, and the end, which `Sent` determines; the
claims on the commands one by one (10_state.md R27, 41_protocol_transmitter.md R100, 42_display_control.md R121 to R130). -/

namespace Sys2Proof.Machine

/-- After n of a command's steps the block is at event n mod 51 of frame n div 51 (10_state.md R24). -/
theorem run_position {s : State} {cw : CmdWord} {i : Instr} (hu : undisturbed s.inputs = true)
    (hd : decodeCommand cw = .ok i) {n : Nat} (hn : n < 51 * (commandFrames s.cfg i).length) :
    ∃ u, run n (s.moveTo (.run cw 0 0) s.inputs) = .next u ∧ u.cfg = s.cfg ∧ u.inputs = ticks n s.inputs ∧
      u.seq = .run cw (n / 51) (n % 51) := by
  induction n with
  | zero => exact ⟨_, run_zero _, rfl, rfl, rfl⟩
  | succ n ih =>
    obtain ⟨u, hrun, hcfg, hin, hq⟩ := ih (by omega)
    have hb : blockMoves u.inputs = true := hin ▸ undisturbed_blockMoves (undisturbed_ticks n hu)
    obtain ⟨v, hstep, hcfg', hin', hq'⟩ := step_position hb hq hd (by rw [hcfg]; omega) (by omega)
    refine ⟨v, ?_, hcfg'.trans hcfg, ?_, ?_⟩
    · rw [run_add n 1 _ u hrun, run_succ 0 u v hstep, run_zero]
    · rw [hin', hin, ticks_add]
      rfl
    · rw [hq', hcfg, nextSeq]
      by_cases hk : n % 51 < 50
      · rw [if_pos hk, show (n + 1) / 51 = n / 51 by omega, show (n + 1) % 51 = n % 51 + 1 by omega]
      · rw [if_neg hk, if_pos (by omega), show (n + 1) / 51 = n / 51 + 1 by omega, show (n + 1) % 51 = 0 by omega]

/-- A command with frames, executed in an idle state, runs to its end (R24, R120). -/
theorem runsTo_sent {s : State} {i : Instr} {cw : CmdWord} {fs : List Frame} {fr : Frame} (hs : s.seq = .idle)
    (hu : undisturbed s.inputs = true) (hd : decodeCommand cw = .ok i) (hexec : exec i s = .next (accept cw s))
    (hfs : commandFrames s.cfg i = fs) (hlast : fs.getLast? = some fr) : ∃ t, runsTo i cw s t ∧ Sent fs fr s t := by
  subst hfs
  obtain ⟨t, hrun, hsent⟩ := run_command s hu hd hlast
  exact ⟨t, ⟨by rw [hexec, accept_idle cw s hs], hrun⟩, hsent⟩

/-- A command of one frame, executed in an idle state, sends that frame. -/
theorem runsTo_sent_one {s : State} (i : Instr) {cw : CmdWord} (fr : Frame) (hs : s.seq = .idle)
    (hu : undisturbed s.inputs = true) (hd : decodeCommand cw = .ok i) (hexec : exec i s = .next (accept cw s))
    (hfs : commandFrames s.cfg i = [fr]) : ∃ t, runsTo i cw s t ∧ Sent [fr] fr s t :=
  runsTo_sent hs hu hd hexec hfs rfl

/-- `Sent` says every field: there is one state it holds of. -/
theorem Sent.unique {fs : List Frame} {fr : Frame} {s t u : State} (ht : Sent fs fr s t) (hu : Sent fs fr s u) : t = u :=
  State.ext (ht.cfg.trans hu.cfg.symm) (ht.inputs.trans hu.inputs.symm) (ht.seq.trans hu.seq.symm)
    (ht.lines.trans hu.lines.symm) (ht.rxShift.trans hu.rxShift.symm) (ht.ds.trans hu.ds.symm)
    (ht.callTrace.trans hu.callTrace.symm) (ht.waveform.trans hu.waveform.symm)
    (ht.frameTrace.trans hu.frameTrace.symm) (ht.written.trans hu.written.symm) (ht.draws.trans hu.draws.symm)

/-- After a command BUSY is 0 (R27). -/
theorem Sent.busy {fs : List Frame} {fr : Frame} {s t : State} (h : Sent fs fr s t) : busy t = false := by
  rw [Machine.busy, h.seq]

/-- After a command of one frame `DS` reads the frame's data at its address, if a register has it, and elsewhere what the
spurious latch before it left (R34, R171). -/
theorem Sent.read {fr : Frame} {s t : State} (h : Sent [fr] fr s t) (x : Nat) :
    t.ds.read x =
      if (s.cfg.regMap.find fr.1).isSome = true ∧ x = fr.1.toNat then some fr.2
      else (deliver s.cfg.regMap s.ds (spurious s)).read x := by
  rw [h.ds, deliver_append, List.map_singleton, deliver_frame_read]

/-- After a command of one frame a claim's read of the register with its address answers the frame's data (R34, R35). -/
theorem Sent.readReg {fr : Frame} {s t : State} (h : Sent [fr] fr s t) {r : DevReg} (hr : s.cfg.regMap.addr r = fr.1) :
    readReg t r = .ok fr.2 := by
  refine readReg_of_read ?_
  rw [h.cfg, h.read, if_pos ⟨RegMap.find_isSome_iff.mpr ⟨r, hr⟩, by rw [hr]⟩]

/-- After a command of one frame, sent while LOAD was high, every other entry reads as before (R34). -/
theorem Sent.read_other {fr : Frame} {s t : State} (h : Sent [fr] fr s t) (hload : s.lines.load = true) {x : Nat}
    (hx : x ≠ fr.1.toNat) : t.ds.read x = s.ds.read x := by
  rw [h.read, if_neg (fun hc => hx hc.2)]
  simp [spurious, hload, deliver]

/-- Settles O36: the position after each step, and the one frame's effect on `DS`. -/
theorem wrregSendsItsFrame : Obligations.WrregSendsItsFrame := by
  intro s a d hs hu
  have hd : decodeCommand (cmdWord 0x2 false a d) = .ok (.wrreg a d) := decodeCommand_cmdWord 0x2 false a d
  refine ⟨fun n hn => ?_, ?_⟩
  · have hlen : (commandFrames s.cfg (.wrreg a d)).length = 1 := rfl
    obtain ⟨u, hrun, -, -, hq⟩ := run_position hu hd (n := n) (by omega)
    rw [Nat.div_eq_of_lt (by omega), Nat.mod_eq_of_lt (by omega)] at hq
    exact ⟨u, hrun, hq, by rw [busy, hq]⟩
  · obtain ⟨t, hruns, hsent⟩ := runsTo_sent_one (.wrreg a d) (a, d) hs hu hd rfl rfl
    refine ⟨t, hruns, hsent, hsent.busy, fun r hr => ?_, fun x hx => ?_⟩
    · rw [hsent.read, if_pos ⟨RegMap.find_isSome_iff.mpr ⟨r, hr⟩, rfl⟩]
    · rw [hsent.read, if_neg]
      rintro ⟨hsome, hxa⟩
      obtain ⟨r, hr⟩ := RegMap.find_isSome_iff.mp hsome
      exact hx.elim (fun hne => hne hxa) (fun hno => hno r hr)

/-- The payload of SETBRT is the low nibble (R122). -/
theorem brightness_eq (b : Byte) : brightness b = 0#4 ++ b.extractLsb' 0 4 := by
  apply BitVec.eq_of_getLsbD_eq
  intro i hi
  show (b &&& 0x0F).getLsbD i = BitVec.getLsbD (w := 4 + 4) (0#4 ++ b.extractLsb' 0 4) i
  rw [BitVec.getLsbD_and, BitVec.getLsbD_append, BitVec.getLsbD_extractLsb']
  interval_cases i <;> simp

/-- The low nibble of SETBRT's payload is that of its operand (R122). -/
theorem brightness_low (b : Byte) : (brightness b).extractLsb' 0 4 = b.extractLsb' 0 4 := by
  rw [brightness_eq]
  exact BitVec.extractLsb'_append_eq_right

/-- The payload of AUXDOT is the low nibble moved up, cut at 8 bits (R125, 92_eei_decisions.md D16). -/
theorem auxPayload_eq (flags : Byte) : auxPayload flags = flags.extractLsb' 0 4 ++ 0#4 := by
  apply BitVec.eq_of_getLsbD_eq
  intro i hi
  show (flags <<< 4).getLsbD i = BitVec.getLsbD (w := 4 + 4) (flags.extractLsb' 0 4 ++ 0#4) i
  rw [BitVec.getLsbD_shiftLeft, BitVec.getLsbD_append, BitVec.getLsbD_extractLsb']
  interval_cases i <;> simp

/-- The payload of DISPCH has the top bit set by `DP` (R124). -/
theorem withDp_eq (v : Byte) (dp : Bool) : withDp v dp = v ||| if dp then 0x80 else 0x00 := by
  cases dp <;> rfl

/-- Settles O37: the one frame of SETBRT. -/
theorem setbrtSendsTheLowNibble : Obligations.SetbrtSendsTheLowNibble := by
  intro s b hs hu
  obtain ⟨t, hruns, hsent⟩ := runsTo_sent_one (.setbrt b) (s.cfg.regMap.addr .intensity, brightness b) hs hu
    (decodeCommand_cmdWord 0x4 false 0 b) rfl rfl
  have hread : readReg t .intensity = .ok (brightness b) := hsent.readReg rfl
  refine ⟨t, hruns, brightness_eq b ▸ hsent, hread, ?_⟩
  rw [intensityView, hread, ← brightness_low]
  rfl

/-- Settles O38: the one frame of DISPCH. -/
theorem dispchSendsThePatternToThePosition : Obligations.DispchSendsThePatternToThePosition := by
  intro s p c dp hs hu
  obtain ⟨t, hruns, hsent⟩ := runsTo_sent_one (.dispch p c dp) (p, lookup s.cfg c ||| if dp then 0x80 else 0x00) hs hu
    (decodeCommand_cmdWord 0x6 dp p c) rfl (by rw [← withDp_eq]; rfl)
  exact ⟨t, hruns, hsent, fun r hr => hsent.readReg hr⟩

/-- Settles O39: the two characters have one pattern, so both commands send the same frame. -/
theorem dispchIgnoresCase : Obligations.DispchIgnoresCase := by
  intro s p c dp hs hu hlo hhi
  have hpattern : lookup s.cfg c = lookup s.cfg (c - 0x20) := lookup_upper s.cfg (decide_eq_true ⟨hlo, hhi⟩)
  obtain ⟨t, hruns, hsent⟩ := runsTo_sent_one (.dispch p c dp) (p, withDp (lookup s.cfg c) dp) hs hu
    (decodeCommand_cmdWord 0x6 dp p c) rfl rfl
  obtain ⟨u, hruns', hsent'⟩ := runsTo_sent_one (.dispch p (c - 0x20) dp) (p, withDp (lookup s.cfg c) dp) hs hu
    (decodeCommand_cmdWord 0x6 dp p (c - 0x20)) rfl (by rw [hpattern]; rfl)
  obtain rfl := hsent.unique hsent'
  exact ⟨t, hruns, hruns'⟩

/-- Settles O40: the one frame of AUXDOT, to a digit register's address. -/
theorem auxdotSendsTheFlagsShifted : Obligations.AuxdotSendsTheFlagsShifted := by
  intro s flags hs hu hwf
  obtain ⟨t, hruns, hsent⟩ := runsTo_sent_one (.auxdot flags) (s.cfg.auxAddr, flags.extractLsb' 0 4 ++ 0#4) hs hu
    (decodeCommand_cmdWord 0x7 false 0 flags) rfl (by rw [← auxPayload_eq]; rfl)
  obtain ⟨haux, -⟩ := Config.wf_parts hwf
  obtain ⟨r, hr, haddr⟩ := List.mem_map.mp (List.contains_iff_mem.mp haux)
  exact ⟨t, hruns, hsent, r, hr, haddr, hsent.readReg haddr⟩

/-- Settles O41: the one frame of each of the two commands. -/
theorem shutdownCommandsWriteOneRegister : Obligations.ShutdownCommandsWriteOneRegister := by
  intro s hs hu
  obtain ⟨t, hruns, hsent⟩ := runsTo_sent_one .shdnon (s.cfg.regMap.addr .shutdown, 0x00) hs hu
    (decodeCommand_cmdWord 0x8 false 0 0) rfl rfl
  obtain ⟨u, hruns', hsent'⟩ := runsTo_sent_one .shdnoff (s.cfg.regMap.addr .shutdown, 0x01) hs hu
    (decodeCommand_cmdWord 0x9 false 0 0) rfl rfl
  have hread : readReg t .shutdown = .ok 0x00 := hsent.readReg rfl
  have hread' : readReg u .shutdown = .ok 0x01 := hsent'.readReg rfl
  refine ⟨t, u, hruns, hruns', hsent, hsent', by rw [powerView, hread]; rfl, by rw [powerView, hread']; rfl, ?_⟩
  exact fun hload x hx => ⟨hsent.read_other hload hx, hsent'.read_other hload hx⟩

/-- Settles O42: the one frame of each of the two commands. -/
theorem testCommandsWriteOneRegister : Obligations.TestCommandsWriteOneRegister := by
  intro s hs hu
  obtain ⟨t, hruns, hsent⟩ := runsTo_sent_one .teston (s.cfg.regMap.addr .displayTest, 0x01) hs hu
    (decodeCommand_cmdWord 0xA false 0 0) rfl rfl
  obtain ⟨u, hruns', hsent'⟩ := runsTo_sent_one .testoff (s.cfg.regMap.addr .displayTest, 0x00) hs hu
    (decodeCommand_cmdWord 0xB false 0 0) rfl rfl
  have hread : readReg t .displayTest = .ok 0x01 := hsent.readReg rfl
  have hread' : readReg u .displayTest = .ok 0x00 := hsent'.readReg rfl
  refine ⟨t, u, hruns, hruns', hsent, hsent', by rw [testView, hread]; rfl, by rw [testView, hread']; rfl, ?_⟩
  exact fun hload x hx => ⟨hsent.read_other hload hx, hsent'.read_other hload hx⟩

/-- Settles O52: at each step before the last the block is at a position, after the last it is idle. -/
theorem busyFromAcceptanceToTheLastEvent : Obligations.BusyFromAcceptanceToTheLastEvent := by
  intro s cw i hs hu hd hne
  obtain ⟨t, hrun, hsent⟩ := run_command s hu hd (List.getLast?_eq_some_getLast hne)
  refine ⟨fun n hn => ?_, t, hrun, hsent.busy⟩
  obtain ⟨u, hrun', -, -, hq⟩ := run_position hu hd hn
  exact ⟨u, hrun', by rw [busy, hq]⟩

end Sys2Proof.Machine
end

section
/-! SUPPORT. The commands of several frames, CLRALL and INIT: each frame writes a register, so what they deliver is what they
commit; the claims on the two (42_display_control.md R121, R123, R134). -/

namespace Sys2Proof.Machine

/-- Frames with recognised addresses are delivered as they are committed (R34, 20_memory.md R53). -/
theorem deliver_recognised {m : RegMap} {fs : List Frame} (ds : Memory)
    (h : ∀ fr ∈ fs, (m.find fr.1).isSome = true) : deliver m ds (fs.map frameWord) = commitAll ds fs := by
  induction fs generalizing ds with
  | nil => rfl
  | cons fr fs ih =>
    have hone : deliver m ds [frameWord fr] = ds.write fr.1.toNat fr.2 := by
      simp [deliver, h fr List.mem_cons_self]
    rw [List.map_cons, ← List.singleton_append, deliver_append, hone, ih _ fun fr' hfr' => h fr' (List.mem_cons_of_mem _ hfr')]
    rfl

/-- Committing one more frame at the end. -/
theorem commitAll_concat (w : Memory) (fs : List Frame) (fr : Frame) :
    commitAll w (fs ++ [fr]) = (commitAll w fs).write fr.1.toNat fr.2 := by
  simp [commitAll, List.foldl_append]

/-- Where no two frames differ on an address, each is read back at its own (R29). -/
theorem commitAll_read_of_mem {w : Memory} {fs : List Frame} {fr : Frame} (hmem : fr ∈ fs)
    (hagree : ∀ fr' ∈ fs, fr'.1 = fr.1 → fr'.2 = fr.2) : (commitAll w fs).read fr.1.toNat = some fr.2 := by
  induction fs using List.reverseRecOn with
  | nil => cases hmem
  | append_singleton fs last ih =>
    rw [commitAll_concat]
    by_cases haddr : last.1 = fr.1
    · rw [haddr, Memory.read_write_same, hagree last (by simp) haddr]
    · have hmem' : fr ∈ fs := by
        obtain h | h := List.mem_append.mp hmem
        · exact h
        · exact absurd (congrArg Prod.fst (List.mem_singleton.mp h).symm) haddr
      rw [Memory.read_write_other _ _ _ _ (fun h => haddr (BitVec.eq_of_toNat_eq h.symm)),
        ih hmem' fun fr' hfr' => hagree fr' (List.mem_append_left _ hfr')]

/-- An address no frame has reads as before (R29). -/
theorem commitAll_read_other {w : Memory} {fs : List Frame} {x : Nat} (h : ∀ fr ∈ fs, fr.1.toNat ≠ x) :
    (commitAll w fs).read x = w.read x := by
  induction fs using List.reverseRecOn with
  | nil => rfl
  | append_singleton fs last ih =>
    rw [commitAll_concat, Memory.read_write_other _ _ _ _ (h last (by simp)).symm,
      ih fun fr hfr => h fr (List.mem_append_left _ hfr)]

/-- The frames that write a payload to each register of a list (42_display_control.md R121, R123). -/
def registerFrames (m : RegMap) (payload : DevReg → Byte) (regs : List DevReg) : List Frame :=
  regs.map fun r => (m.addr r, payload r)

/-- The frames of registers are delivered as they are committed. -/
theorem Sent.ds_registerFrames {payload : DevReg → Byte} {regs : List DevReg} {fr : Frame} {s t : State}
    (h : Sent (registerFrames s.cfg.regMap payload regs) fr s t) :
    t.ds = commitAll (deliver s.cfg.regMap s.ds (spurious s)) (registerFrames s.cfg.regMap payload regs) := by
  rw [h.ds, deliver_append, deliver_recognised]
  intro fr hfr
  obtain ⟨r, -, rfl⟩ := List.mem_map.mp hfr
  exact RegMap.find_isSome_iff.mpr ⟨r, rfl⟩

/-- The register's frame is the one read back, if registers with its address get the same payload. -/
theorem registerFrames_read {m : RegMap} {payload : DevReg → Byte} {regs : List DevReg} {r : DevReg} (w : Memory)
    (hr : r ∈ regs) (hagree : ∀ r' ∈ regs, m.addr r' = m.addr r → payload r' = payload r) :
    (commitAll w (registerFrames m payload regs)).read (m.addr r).toNat = some (payload r) := by
  refine commitAll_read_of_mem (fr := (m.addr r, payload r)) (List.mem_map_of_mem hr) fun fr hfr haddr => ?_
  obtain ⟨r', hr', rfl⟩ := List.mem_map.mp hfr
  exact hagree r' hr' haddr

/-- Settles O43: the eight frames all carry 0x00, so each digit reads it whatever the map is. -/
theorem clrallBlanksEveryDigit : Obligations.ClrallBlanksEveryDigit := by
  intro s hs hu
  obtain ⟨t, hruns, hsent⟩ := runsTo_sent (i := .clrall) (fs := registerFrames s.cfg.regMap (fun _ => 0x00) DevReg.digits)
    (fr := (s.cfg.regMap.digit8, 0)) hs hu (decodeCommand_cmdWord 0x5 false 0 0) rfl rfl rfl
  have hds := hsent.ds_registerFrames
  refine ⟨t, hruns, hsent, fun r hr => readReg_of_read ?_, fun x hx => ?_⟩
  · rw [hsent.cfg, hds]
    exact registerFrames_read _ hr fun _ _ _ => rfl
  · rw [hds]
    refine commitAll_read_other fun fr hfr => ?_
    obtain ⟨r, hr, rfl⟩ := List.mem_map.mp hfr
    exact hx r hr

/-- The registers in the order INIT writes them (R121, 92_eei_decisions.md D14). -/
def initOrder : List DevReg :=
  [.scanLimit, .decodeMode, .shutdown, .displayTest] ++ DevReg.digits ++ [.intensity]

/-- What INIT writes to each register (R121, 92_eei_decisions.md D13). -/
def initPayload (cfg : Config) : DevReg → Byte
  | .scanLimit => cfg.scanAll
  | .shutdown => 0x01
  | .intensity => 0x0F
  | .decodeMode | .displayTest | .digit1 | .digit2 | .digit3 | .digit4 | .digit5 | .digit6 | .digit7 | .digit8 => 0x00

/-- INIT's frames write its payload to each register, in its order (R121). -/
theorem framesInit_eq (cfg : Config) : framesInit cfg = registerFrames cfg.regMap (initPayload cfg) initOrder := rfl

/-- INIT leaves no register out (R134). -/
theorem mem_initOrder (r : DevReg) : r ∈ initOrder := by
  cases r <;> decide

/-- INIT writes 0x00 to every digit (R121). -/
theorem initPayload_digit (cfg : Config) {r : DevReg} (h : r ∈ DevReg.digits) : initPayload cfg r = 0x00 := by
  cases r <;> simp [DevReg.digits] at h <;> rfl

/-- In an admissible configuration each register reads what INIT writes to it (R121). -/
theorem init_read {cfg : Config} (h : cfg.wf = true) (w : Memory) (r : DevReg) :
    (commitAll w (registerFrames cfg.regMap (initPayload cfg) initOrder)).read (cfg.regMap.addr r).toNat =
      some (initPayload cfg r) :=
  registerFrames_read w (mem_initOrder r) fun r' _ haddr => by rw [RegMap.addr_inj (Config.wf_regMap h) haddr]

/-- The full scan as its view answers it (R31). -/
theorem scanView_full {s : State} (h : readReg s .scanLimit = .ok s.cfg.scanAll) : scanView s = .ok (some .full) := by
  rw [scanView, h]
  exact congrArg Except.ok (if_pos rfl)

/-- A segment of a digit in no-decode mode as its view answers it (R31, R86). -/
theorem segmentView_eq {s : State} {r : DevReg} {v : Byte} (hr : r ∈ DevReg.digits)
    (hdecode : decodeView s = .ok (some .noDecode)) (hread : readReg s r = .ok v) (seg : Segment) :
    segmentView s r seg = .ok (some (lit v seg)) := by
  rw [segmentView, if_pos hr, hdecode]
  show (readReg s r >>= fun v => .ok (some (lit v seg))) = _
  rw [hread]
  rfl

/-- Settles O44: every register reads what INIT wrote to it, in `DS` and in the record alike. -/
theorem initGivesTheKnownState : Obligations.InitGivesTheKnownState := by
  intro s hs hu hwf
  obtain ⟨t, hruns, hsent⟩ := runsTo_sent (i := .init) (fs := registerFrames s.cfg.regMap (initPayload s.cfg) initOrder)
    (fr := (s.cfg.regMap.intensity, 0x0F)) hs hu (decodeCommand_cmdWord 0x3 false 0 0) rfl (framesInit_eq s.cfg) rfl
  have hcfg := hsent.cfg
  have hds (r : DevReg) : t.ds.read (t.cfg.regMap.addr r).toNat = some (initPayload s.cfg r) := by
    rw [hcfg, hsent.ds_registerFrames]
    exact init_read hwf _ r
  have hread (r : DevReg) : readReg t r = .ok (initPayload s.cfg r) := readReg_of_read (hds r)
  have hdecode : decodeView t = .ok (some .noDecode) := by rw [decodeView, hread]; rfl
  have hdigit (r : DevReg) (hr : r ∈ DevReg.digits) : readReg t r = .ok 0x00 := by
    rw [hread, initPayload_digit s.cfg hr]
  refine ⟨t, hruns, hsent, scanView_full (by rw [hread, hcfg]; rfl), hdecode, by rw [powerView, hread]; rfl,
    by rw [testView, hread]; rfl, hdigit, fun r hr seg => ?_, hread .intensity, ?_⟩
  · rw [segmentView_eq hr hdecode (hdigit r hr), lit_blank]
  · refine (initialised_iff t).mpr fun r => ⟨_, hds r, ?_⟩
    rw [hcfg, hsent.written]
    exact init_read hwf _ r

end Sys2Proof.Machine
end

section
/-! SUPPORT. A list of commands from the first word at the port to the last event: the end is one state, whatever waits lie
between, and two ends compose to the end of both; the claims on runs (20_memory.md R51, R52, 60_exceptions.md R148,
30_encoding.md R73). -/

namespace Sys2Proof.Machine

/-- Replace the call trace. -/
def State.withTrace (s : State) (es : List Event) : State := { s with callTrace := es }

/-- Where the block stands when it has sent the frames and emitted the events since an idle state, with the given inputs left
(R24, R51). -/
def afterCommands (fs : List Frame) (es : List Event) (ins : List Input) (s : State) : State :=
  (((afterFrames fs s).moveTo .idle ins).withWritten (commitAll s.written fs)).withTrace (s.callTrace ++ es)

/-- Frames sent one after another, in two groups. -/
theorem afterFrames_append (fs fs' : List Frame) (s : State) :
    afterFrames (fs ++ fs') s = afterFrames fs' (afterFrames fs s) := by
  simp only [afterFrames, List.foldl_append]

/-- Sending frames only adds to the call trace: what stood there has no part in anything else (R9). -/
theorem afterFrames_withTrace (fs : List Frame) (s : State) (es es' : List Event) :
    (afterFrames fs (s.withTrace es)).withTrace es' = (afterFrames fs s).withTrace es' := by
  by_cases hfs : fs = []
  · subst hfs
    rfl
  · rw [afterFrames_eq fs _ hfs, afterFrames_eq fs s hfs]
    rfl

/-- The end of one run and then of another is the end of both. -/
theorem afterCommands_trans (fs fs' : List Frame) (es es' : List Event) (ins ins' : List Input) (s : State) :
    afterCommands fs' es' ins' (afterCommands fs es ins s) = afterCommands (fs ++ fs') (es ++ es') ins' s := by
  have hwritten : commitAll (commitAll s.written fs) fs' = commitAll s.written (fs ++ fs') := by
    simp only [commitAll, List.foldl_append]
  have hframes (u : State) (w : Memory) (ins : List Input) (c c' : List Event) :
      (((afterFrames fs' (((u.moveTo .idle ins).withWritten w).withTrace c)).moveTo .idle ins').withWritten
        (commitAll w fs')).withTrace c' =
      (((afterFrames fs' u).moveTo .idle ins').withWritten (commitAll w fs')).withTrace c' := by
    have htrace := afterFrames_withTrace fs' ((u.moveTo .idle ins).withWritten w) c c'
    rw [afterFrames_withWritten, afterFrames_moveTo] at htrace
    exact congrArg (fun v : State => (v.moveTo .idle ins').withWritten (commitAll w fs')) htrace
  unfold afterCommands
  rw [afterFrames_append, ← hwritten, ← List.append_assoc]
  exact hframes _ _ _ _ _

@[simp] theorem afterCommands_ds (fs : List Frame) (es : List Event) (ins : List Input) (s : State) :
    (afterCommands fs es ins s).ds = (afterFrames fs s).ds := rfl

/-- The end does not depend on where the sequencer and the inputs were. -/
theorem afterCommands_moveTo (fs : List Frame) (es : List Event) (ins ins' : List Input) (s : State) (q : Seq) :
    afterCommands fs es ins (s.moveTo q ins') = afterCommands fs es ins s := by
  unfold afterCommands
  rw [afterFrames_moveTo]
  rfl

/-- Sending frames keeps the configuration (70_reset_and_hazards.md R162). -/
@[simp] theorem afterFrames_cfg (fs : List Frame) (s : State) : (afterFrames fs s).cfg = s.cfg := by
  by_cases hfs : fs = []
  · subst hfs
    rfl
  · rw [afterFrames_eq fs s hfs]

/-- What sending frames adds to the call trace (R101). -/
theorem afterFrames_callTrace (fs : List Frame) (s : State) :
    (afterFrames fs s).callTrace = s.callTrace ++ fs.flatMap fun fr => (sendFrame (frameWord fr)).map .line := by
  by_cases hfs : fs = []
  · subst hfs
    simp [afterFrames]
  · rw [afterFrames_eq fs s hfs]

/-- A presented command runs to its end: LOOKUP in the one step, every other command in the 51 steps of each of its frames
after its acceptance (R24, R80). -/
theorem run_presented_end {s : State} {cw : CmdWord} {i : Instr} {rest : List Input} (hs : s.seq = .idle)
    (hin : s.inputs = .command cw :: rest) (hu : undisturbed rest = true) (hd : decodeCommand cw = .ok i) :
    run (1 + 51 * (commandFrames s.cfg i).length) s =
      .next (afterCommands (commandFrames s.cfg i) (commandEvents s.cfg i)
        (ticks (51 * (commandFrames s.cfg i).length) rest) s) := by
  have hstep := step_presented hs hin hd
  obtain ⟨cw', ⟨hd', hpos⟩, hexec⟩ | ⟨c, rfl, hexec⟩ := exec_command_cases hd (s.moveTo .idle rest)
  · have hpos' : 0 < (commandFrames s.cfg i).length := hpos
    have hacc : run 1 s = .next (s.moveTo (.run cw' 0 0) rest) := by
      rw [run_succ 0 s _ (hstep.trans hexec), accept_idle _ _ rfl, run_zero]
      rfl
    rw [run_add 1 _ s _ hacc, run_frames (commandFrames s.cfg i) (f := 0) (s.moveTo (.run cw' 0 0) rest) hu hd' rfl
      (List.ne_nil_of_length_pos hpos') rfl, afterFrames_moveTo, State.moveTo_moveTo]
    refine congrArg _ (State.ext rfl rfl rfl rfl rfl rfl ?_ rfl rfl rfl rfl)
    exact (afterFrames_callTrace _ s).trans (congrArg _ (commandEvents_of_frames hpos').symm)
  · rw [show 1 + 51 * (commandFrames s.cfg (.lookup c)).length = 0 + 1 from rfl, run_succ 0 s _ (hstep.trans hexec), run_zero]
    rfl

/-- An idle block lets a list of waits pass, a step each (60_exceptions.md R148). -/
theorem run_waits {waits : List Input} (hw : ∀ a ∈ waits, a = .quiet) (rest : List Input) (s : State) :
    run waits.length (s.moveTo .idle (waits ++ rest)) = .next (s.moveTo .idle rest) := by
  induction waits with
  | nil => rfl
  | cons a waits ih =>
    obtain rfl := hw a List.mem_cons_self
    rw [List.length_cons, run_succ _ _ _ (step_waiting rfl (.inr rfl))]
    exact ih fun b hb => hw b (List.mem_cons_of_mem _ hb)

/-- Steps of a sending block take no command from the port and leave no more waits than there were (R26). -/
theorem ticks_commands (n : Nat) {ins : List Input} (hu : undisturbed ins = true) :
    (ticks n ins).filter (· != .quiet) = ins.filter (· != .quiet) ∧ (ticks n ins).count .quiet ≤ ins.count .quiet := by
  induction n generalizing ins with
  | zero => exact ⟨rfl, Nat.le_refl _⟩
  | succ n ih =>
    obtain ⟨hfilter, hcount⟩ := ih (undisturbed_tick hu)
    rw [ticks, hfilter]
    rcases ins with _ | ⟨_ | _ | _ | _, rest⟩
    · exact ⟨rfl, hcount⟩
    · exact ⟨rfl, hcount⟩
    · refine ⟨rfl, hcount.trans ?_⟩
      simp [tick]
    · simp [undisturbed] at hu
    · simp [undisturbed] at hu

/-- A command's word is decoded to the command (R62). -/
theorem decodeCommand_commandWord {m : RegMap} {i : Instr} {w : CmdWord} (h : commandWord m i = some w) :
    decodeCommand w = .ok i := by
  unfold commandWord at h
  cases he : encode m i with
  | cmd w' =>
    simp only [he, Option.some.injEq] at h
    exact h ▸ decodeCommand_encode he
  | frame w' => simp [he] at h

/-- The steps of one more command: its acceptance, and 51 for each of its frames (R24). -/
theorem programSteps_cons (cfg : Config) (i : Instr) (is : List Instr) :
    programSteps cfg (i :: is) = 1 + 51 * (commandFrames cfg i).length + programSteps cfg is := by
  simp only [programSteps, programFrames, List.length_cons, List.flatMap_cons, List.length_append]
  omega

/-- Commands presented one after another, with any waits between them, run to their end (R51, R52, R148): one step to accept
each, 51 for each frame, and at most one for each wait. -/
theorem run_program (is : List Instr) {ins : List Input} {s : State} (hu : undisturbed ins = true)
    (hcmd : ∀ i ∈ is, (commandWord s.cfg.regMap i).isSome = true)
    (hprog : ins.filter (· != .quiet) = program s.cfg.regMap is) :
    ∃ n, programSteps s.cfg is ≤ n ∧ n ≤ programSteps s.cfg is + ins.count .quiet ∧
      run n (s.moveTo .idle ins) =
        .next (afterCommands (programFrames s.cfg is) (is.flatMap (commandEvents s.cfg)) [] s) := by
  induction is generalizing ins s with
  | nil =>
    have hwaits : ∀ a ∈ ins, a = .quiet := by simpa using List.filter_eq_nil_iff.mp hprog
    refine ⟨ins.length, Nat.zero_le _, ?_, ?_⟩
    · rw [List.count_eq_length.mpr fun a ha => (hwaits a ha).symm]
      exact Nat.le_add_left _ _
    · have hrun := run_waits hwaits [] s
      rw [List.append_nil] at hrun
      rw [hrun]
      simp [afterCommands, programFrames, afterFrames, commitAll, State.withTrace, State.withWritten, State.moveTo]
  | cons i is ih =>
    obtain ⟨w, hw⟩ := Option.isSome_iff_exists.mp (hcmd i List.mem_cons_self)
    have hcons : program s.cfg.regMap (i :: is) = .command w :: program s.cfg.regMap is := by
      simp [program, hw]
    rw [hcons] at hprog
    obtain ⟨waits, rest, rfl, hwaits, -, hrest⟩ := List.filter_eq_cons_iff.mp hprog
    have hu' : undisturbed rest = true := by
      simp only [undisturbed, List.all_append, List.all_cons, Bool.and_eq_true] at hu ⊢
      exact hu.2.2
    have hwaits' : ∀ a ∈ waits, a = .quiet := by simpa using hwaits
    have hrun₁ := run_waits hwaits' (.command w :: rest) s
    have hrun₂ := run_presented_end (s := s.moveTo .idle (.command w :: rest)) rfl rfl hu' (decodeCommand_commandWord hw)
    rw [State.moveTo_cfg, afterCommands_moveTo] at hrun₂
    generalize hm : 51 * (commandFrames s.cfg i).length = m at hrun₂
    obtain ⟨hfilter, hcount⟩ := ticks_commands m hu'
    have hcfg : (afterCommands (commandFrames s.cfg i) (commandEvents s.cfg i) (ticks m rest) s).cfg = s.cfg :=
      afterFrames_cfg _ s
    obtain ⟨n, hlo, hhi, hrun₃⟩ := ih (ins := ticks m rest)
      (s := afterCommands (commandFrames s.cfg i) (commandEvents s.cfg i) (ticks m rest) s) (undisturbed_ticks m hu')
      (by rw [hcfg]; exact fun j hj => hcmd j (List.mem_cons_of_mem _ hj)) (by rw [hcfg, hfilter, hrest])
    rw [hcfg] at hlo hhi
    rw [hcfg, afterCommands_trans] at hrun₃
    have hwaitCount : (waits ++ .command w :: rest).count Input.quiet = waits.length + rest.count .quiet := by
      rw [List.count_append, List.count_eq_length.mpr fun a ha => (hwaits' a ha).symm, List.count_cons_of_ne (by simp)]
    refine ⟨waits.length + (1 + m + n), ?_, ?_, ?_⟩
    · rw [programSteps_cons]
      omega
    · rw [programSteps_cons, hwaitCount]
      omega
    · rw [run_add _ _ _ _ hrun₁, run_add _ _ _ _ hrun₂]
      exact hrun₃

/-- The words of a list of commands, presented with nothing between them. -/
theorem run_program_only {is : List Instr} {s : State} (hs : s.seq = .idle)
    (hcmd : ∀ i ∈ is, (commandWord s.cfg.regMap i).isSome = true) :
    run (programSteps s.cfg is) { s with inputs := program s.cfg.regMap is } =
      .next (afterCommands (programFrames s.cfg is) (is.flatMap (commandEvents s.cfg)) [] s) := by
  have hcommand : ∀ a ∈ program s.cfg.regMap is, ∃ w, a = .command w := by
    intro a ha
    obtain ⟨i, -, hi⟩ := List.mem_filterMap.mp ha
    obtain ⟨w, -, rfl⟩ := Option.map_eq_some_iff.mp hi
    exact ⟨w, rfl⟩
  have hu : undisturbed (program s.cfg.regMap is) = true := List.all_eq_true.mpr fun a ha => by
    obtain ⟨w, rfl⟩ := hcommand a ha
    rfl
  have hfilter : (program s.cfg.regMap is).filter (· != .quiet) = program s.cfg.regMap is :=
    List.filter_eq_self.mpr fun a ha => by
      obtain ⟨w, rfl⟩ := hcommand a ha
      rfl
  have hcount : (program s.cfg.regMap is).count .quiet = 0 := List.count_eq_zero.mpr fun ha => by
    obtain ⟨w, hw⟩ := hcommand _ ha
    cases hw
  obtain ⟨n, hlo, hhi, hrun⟩ := run_program is hu hcmd hfilter
  rw [hcount] at hhi
  obtain rfl : n = programSteps s.cfg is := by omega
  rw [← hrun, State.moveTo, ← hs]

/-- The line events of a command are those of its frames (R101). -/
theorem lineEvents_commandEvents (cfg : Config) (i : Instr) :
    lineEvents (commandEvents cfg i) = (commandFrames cfg i).flatMap fun fr => sendFrame (frameWord fr) := by
  have hframes (fs : List Frame) : lineEvents (fs.flatMap fun fr => (sendFrame (frameWord fr)).map .line) =
      fs.flatMap fun fr => sendFrame (frameWord fr) := by
    simp [lineEvents, ← List.map_flatMap, List.filterMap_map]
  cases i with
  | lookup c => rfl
  | _ => exact hframes _

/-- The line events of a list of commands are those of its frames (R101, R51). -/
theorem lineEvents_program (cfg : Config) (is : List Instr) :
    lineEvents (is.flatMap (commandEvents cfg)) = (programFrames cfg is).flatMap fun fr => sendFrame (frameWord fr) := by
  induction is with
  | nil => rfl
  | cons i is ih =>
    rw [List.flatMap_cons, lineEvents, List.filterMap_append, ← lineEvents, ← lineEvents, lineEvents_commandEvents, ih,
      programFrames, programFrames, List.flatMap_cons, List.flatMap_append]

/-- What sending a list of frames leaves, if it is empty and if it is not (R34, R103, R105, R171). -/
theorem afterFrames_effect (fs : List Frame) (s : State) :
    (afterFrames fs s).waveform = s.waveform ++ triplesFrom s.lines (fs.flatMap fun fr => sendFrame (frameWord fr)) ∧
      (afterFrames fs s).frameTrace = s.frameTrace ++ (if fs = [] then [] else spurious s) ++ fs.map frameWord ∧
      (afterFrames fs s).ds =
        deliver s.cfg.regMap s.ds ((if fs = [] then [] else spurious s) ++ fs.map frameWord) ∧
      (fs = [] → (afterFrames fs s).rxShift = s.rxShift ∧ (afterFrames fs s).lines = s.lines) ∧
      ∀ fr, fs.getLast? = some fr →
        (afterFrames fs s).rxShift = frameWord fr ∧ (afterFrames fs s).lines = ⟨(frameWord fr).getLsbD 0, true, true⟩ := by
  by_cases hfs : fs = []
  · subst hfs
    simp [afterFrames, triplesFrom, deliver]
  · rw [afterFrames_eq fs s hfs, if_neg hfs]
    refine ⟨rfl, rfl, rfl, fun h => absurd h hfs, fun fr hfr => ?_⟩
    rw [List.getLast?_eq_some_getLast hfs, Option.some.injEq] at hfr
    rw [hfr]
    exact ⟨rfl, rfl⟩

/-- Settles O47: the end of the run, field by field. -/
theorem commandsRunInOrderToCompletion : Obligations.CommandsRunInOrderToCompletion := by
  intro is ins s hs hu hcmd hprog
  obtain ⟨n, hlo, hhi, hrun⟩ := run_program is hu hcmd hprog
  obtain ⟨hwave, htrace, hds, hnone, hlast⟩ := afterFrames_effect (programFrames s.cfg is) s
  rw [State.moveTo, ← hs] at hrun
  rw [← lineEvents_program] at hwave
  exact ⟨n, _, hlo, hhi, hrun, rfl, rfl, afterFrames_cfg _ s, rfl, hwave, htrace, hds, rfl, hnone, hlast⟩

/-- The WRREGs of a list of frames send those frames (R73). -/
theorem programFrames_wrregs (cfg : Config) (fs : List Frame) :
    programFrames cfg (fs.map fun fr => .wrreg fr.1 fr.2) = fs := by
  simp [programFrames, List.flatMap_map, commandFrames, framesWrreg]

/-- The WRREGs of a list of frames emit those frames' events (R73). -/
theorem commandEvents_wrregs (cfg : Config) (fs : List Frame) :
    (fs.map fun fr => Instr.wrreg fr.1 fr.2).flatMap (commandEvents cfg) =
      fs.flatMap fun fr => (sendFrame (frameWord fr)).map .line := by
  simp [List.flatMap_map, commandEvents, commandFrames, framesWrreg]

/-- The WRREGs of a list of frames run to the end of those frames (R73, R51). -/
theorem run_wrregs (fs : List Frame) {s : State} (hs : s.seq = .idle) :
    run (52 * fs.length) { s with inputs := program s.cfg.regMap (fs.map fun fr => .wrreg fr.1 fr.2) } =
      .next (afterCommands fs (fs.flatMap fun fr => (sendFrame (frameWord fr)).map .line) [] s) := by
  have hrun := run_program_only (is := fs.map fun fr => .wrreg fr.1 fr.2) hs fun i hi => by
    obtain ⟨fr, -, rfl⟩ := List.mem_map.mp hi
    rfl
  have hsteps : programSteps s.cfg (fs.map fun fr => .wrreg fr.1 fr.2) = 52 * fs.length := by
    rw [programSteps, programFrames_wrregs, List.length_map]
    omega
  rwa [hsteps, programFrames_wrregs, commandEvents_wrregs] at hrun

/-- Settles O48: both runs send the same frames with the same events, and end where those end. -/
theorem everyCommandEqualsItsWrregs : Obligations.EveryCommandEqualsItsWrregs := by
  intro i s hs hcmd hne
  have hrun := run_program_only (is := [i]) hs (by simpa using hcmd)
  simp only [programSteps, programFrames, List.flatMap_cons, List.flatMap_nil, List.append_nil, List.length_singleton] at hrun
  refine ⟨_, hrun, ?_⟩
  rw [run_wrregs _ hs, commandEvents_of_frames (List.length_pos_iff.mpr hne)]

/-- A second frame with the same address leaves no trace of the first (R29). -/
theorem deliver_same_addr (m : RegMap) (ds : Memory) (a d d' : Byte) :
    deliver m ds [frameWord (a, d), frameWord (a, d')] = deliver m ds [frameWord (a, d')] := by
  by_cases h : (m.find a).isSome = true
  · simp [deliver, h]
  · simp [deliver, h]

/-- Settles O50: the two runs deliver the same frames but for the first write, which the second replaces. -/
theorem lastWriteReplacesTheByte : Obligations.LastWriteReplacesTheByte := by
  intro s a d d' hs
  refine ⟨_, _, run_wrregs [(a, d), (a, d')] hs, run_wrregs [(a, d')] hs, ?_⟩
  obtain ⟨-, -, hds, -⟩ := afterFrames_effect [(a, d), (a, d')] s
  obtain ⟨-, -, hds', -⟩ := afterFrames_effect [(a, d')] s
  rw [afterCommands_ds, afterCommands_ds, hds, hds']
  simp only [reduceCtorEq, if_false, deliver_append, List.map_cons, List.map_nil, deliver_same_addr]

end Sys2Proof.Machine
end
